-- ==== Sys2Proof/Word.lean ====
section
/-!
DEFINITION. The bit-vector types of the spec's notation (00_scope.md rule R27): U8, U16 and U32.
-/

namespace Sys2Proof

/-- U8: a byte of any space, a register of eight bits. -/
abbrev Byte := BitVec 8

/-- U16: a slot's `offset` and `rowStep`, the fetch offset, the enable vector. -/
abbrev Half := BitVec 16

/-- U32: the command word, the composite word, the fractional position and the step. -/
abbrev Word := BitVec 32

end Sys2Proof
end

