-- ==== Sys2Proof/Config.lean ====
section
/-!
DEFINITION. The variant descriptor `cfg` (00_scope.md rules R2, R5), the compositor hooks (43_compositor.md rule R112), the
inputs of the block (20_memory.md rule R45, 40_oscillator.md rule R81) and the contents of the memories at power-on
(10_state.md rule R24, U1). What the spec leaves OPEN is a field of `Cfg`; the machine's descriptor is the opaque constant of
Machine/Board.lean, of which nothing can be computed. What rule R5 calls fixed or decided is no field: it is a function of the
variant in Machine/Operands.lean. A `real` of the spec is a real number here (rules R27, R79).
-/

namespace Sys2Proof

/-- The three variants of rule R2: the racer, the submarine shooter, the space shooter. -/
inductive Variant where
  | v1
  | v2
  | v3
deriving DecidableEq, Repr, Inhabited

/-- The six control latches of 10_state.md rule R18, which the hooks receive as their argument `L` (rule R112). -/
structure Latches where
  /-- Latch 0, color-bank select. -/
  colBank : Byte
  /-- Latch 1, priority-bank select. -/
  priBank : Byte
  /-- Latch 2, flip flag in bit 0. -/
  flip : Byte
  /-- Latch 3, road-disable flag in bit 0. -/
  roadDis : Byte
  /-- Latch 4, vertical offset accumulator. -/
  vOfs : Byte
  /-- Latch 5, horizontal offset accumulator. -/
  hOfs : Byte
deriving DecidableEq, Repr, Inhabited

/-- One entry of `CLASSIFY` (42_bit_fetcher.md rule R103): does the nibble end the stream, does it set the boundary flag. -/
structure ClassBits where
  ends : Bool
  boundary : Bool
deriving DecidableEq, Repr, Inhabited

/-- The compositor hooks of 43_compositor.md rule R112: total pure functions of the listed arguments. -/
structure Hooks where
  /-- `(V, H, L)` to the area/road code. -/
  areaBits : Byte → Byte → Latches → BitVec 5
  /-- `(area, L)`: is the pixel off-road. -/
  offRoad : BitVec 5 → Latches → Bool
  /-- `(H, L)` to the scrambled foreground column. -/
  scrambleCol : Byte → Latches → Byte
  /-- `(fgraw, L)` to the foreground colour code. -/
  fgCode : Nat → Latches → Nat
  /-- `(V, H, area, L)` to the area/background colour. -/
  bgColor : Byte → Byte → BitVec 5 → Latches → Nat
  /-- `(spr, plb, area, fgc, L)` to the priority/selection code. -/
  priSelect : Word → Byte → BitVec 5 → Nat → Latches → Nat
  /-- `(sel, spr, bg, fgc, L)` to the three multiplexed bit patterns. -/
  muxRgb : Nat → Word → Nat → Nat → Latches → Nat × Nat × Nat
  /-- `((r, g, b), L)` to the colour index. -/
  finalColor : Nat × Nat × Nat → Latches → Nat
  /-- `(spr, area, L)` to the collision bits. -/
  collBits : Word → BitVec 5 → Latches → Byte
  /-- First foreground-suppression bit. -/
  fs0 : Nat → Bool
  /-- Second foreground-suppression bit. -/
  fs1 : Nat → Bool
  /-- Sprite change flag. -/
  chng : Nat → Bool
  /-- Colour of rule 1 of the V3 chain. -/
  fgColorA : Nat → Latches → Nat
  /-- Colour of rule 3 of the V3 chain. -/
  fgColorB : Nat → Latches → Nat
  /-- `(STAR, V, H, k, L)`: the star bit of a device pixel; the plane is passed as its bytes in address order. -/
  starBit : List Byte → Byte → Byte → Nat → Latches → Bool
  /-- Colour of a star. -/
  starColor : Nat
  /-- `(V, H, L)` to the gradient colour. -/
  gradient : Byte → Byte → Latches → Nat
deriving Inhabited

/-- The inputs of the block: neither state nor descriptor (10_state.md rule R22). -/
structure Inputs where
  /-- The foreground row (rule R45): `fg n v c` is the raw pixel at column `c` of scanline `v` while the `n`-th `LINE` since
  power-on is in progress, so that one row is fixed for the whole scanline and rows of different scanlines are unrelated. -/
  fg : Nat → Byte → Byte → Nat
  /-- The potentiometers (rule R81, U13): `pot n` is the pair (`RA`, `RB`) seen by the `n`-th evaluation of the step rate. -/
  pot : Nat → ℝ × ℝ
deriving Inhabited

/-- Contents the spec leaves unspecified after reset (rule R24, U1: any value). -/
structure PowerOn where
  slot : Nat → Byte
  hen : Nat → Byte
  star : Nat → Byte
  latch : Latches
  fb : Nat → Nat
deriving Inhabited

/-- The descriptor of rule R5, its OPEN fields only, with the inputs and the power-on contents beside it. -/
structure Cfg where
  variant : Variant
  /-- `HSCALE`, the horizontal multiplier. -/
  hscale : Nat
  /-- `SUBPIX`, fetches per board pixel (rule R116). -/
  subpix : Nat
  /-- `RA`, ohms. -/
  ra : ℝ
  /-- `RB`, ohms. -/
  rb : ℝ
  /-- `CEXT`, farads. -/
  cext : ℝ
  /-- `POTS`: the resistances are inputs. -/
  pots : Bool
  /-- `Fvco(cv, C)`, hertz (rule R77). -/
  fvco : ℝ → ℝ → ℝ
  /-- `StepRate` of this descriptor, a code and the resistances (`RA`, `RB`) to the step: the function of rule R76 and no other,
  which well-formedness says (`Cfg.WF.stepRates_eq`). It stands as a field, the packaging that rule R79 allows, because real
  arithmetic has no program and `exec` must have one (log 3). -/
  stepRates : Byte → ℝ × ℝ → Word
  /-- `SL_XOR`. -/
  slXor : Byte
  /-- `YTABLE`, 512 bytes. -/
  ytable : BitVec 9 → Byte
  /-- `BANK_SHIFT`. -/
  bankShift : Nat
  /-- The length of `SPRROM` is two to this power. -/
  romBits : Nat
  /-- `SPRROM` at an address below its length. -/
  sprrom : Nat → Byte
  /-- `CLASSIFY` of V2 and V3 (V1's is decided, rule R103). -/
  classifyOpen : BitVec 4 → ClassBits
  /-- `HasScramble` of V3 (V1 and V2 have a decided and a fixed value). -/
  scrambleV3 : Bool
  /-- In V3, `STAR_SIZE` is two to this power (rule R40). -/
  starBits : Nat
  /-- `PALETTE`, colour index to (R, G, B) (rule R142). -/
  palette : Nat → Nat × Nat × Nat
  /-- `NCOLORS`. -/
  nColors : Nat
  hooks : Hooks
  inputs : Inputs
  powerOn : PowerOn
deriving Inhabited

/-- `BASE_CLOCK` in hertz (rule R5, fixed). -/
def baseClock : Nat := 5000000

end Sys2Proof
end

