-- ==== Sys2Proof/Machine/StepRate.lean ====
section
/-!
DEFINITION. The function `StepRate` of the oscillator (40_oscillator.md rules R75 to R79, R81), over the real numbers. A real
has no program, so the function is noncomputable: operations read it from `Cfg.stepRates`, which Cfg.WF makes equal to it.
-/

namespace Sys2Proof.Machine

/-- The resistances (`RA`, `RB`) of the `n`-th evaluation: constants, or the potentiometers' sample (rule R81). -/
def resistances (c : Cfg) (n : Nat) : ℝ × ℝ := if c.pots then c.inputs.pot n else (c.ra, c.rb)

/-- The reference current, rule R76 step 1. -/
noncomputable def refCurrent (rb : ℝ) : ℝ := 5 / (1500 + rb)

/-- The output current, rule R76 step 2. -/
noncomputable def outCurrent (code : Byte) (rb : ℝ) : ℝ := refCurrent rb * ((code.toNat : ℝ) / 256)

/-- The reference voltage, rule R76 step 3. -/
noncomputable def refVoltage (ra : ℝ) : ℝ := 5 * 1000 / (3800 + 1000 + ra)

/-- `clamp(x, 0, 5)`. -/
noncomputable def clampVolts (x : ℝ) : ℝ := if x < 0 then 0 else if 5 < x then 5 else x

/-- The control voltage, rule R76 step 4. -/
noncomputable def controlVoltage (code : Byte) (ra rb : ℝ) : ℝ := clampVolts (2200 * outCurrent code rb + refVoltage ra)

/-- The step before it is cut to 32 bits, rule R76 steps 5 and 6. -/
noncomputable def rawStep (c : Cfg) (code : Byte) (r : ℝ × ℝ) : Int :=
  ⌊c.fvco (controlVoltage code r.1 r.2) c.cext / ((baseClock * c.hscale : Nat) : ℝ) * (2 ^ 24 : Nat)⌋

/-- `StepRate(code, RA, RB, CEXT)`, rule R76. -/
noncomputable def stepRate (c : Cfg) (code : Byte) (r : ℝ × ℝ) : Word := BitVec.ofInt 32 (rawStep c code r)

end Sys2Proof.Machine
end

