-- ==== Sys2Proof/Syntax.lean ====
section
/-!
DEFINITION. The closed set of operations (30_encoding.md rule R60, with the seven reserved codes of rule R64 as the opcode
table lists them) and the pseudo-operations of rule R68. Every operand is a field of the command word at its own width
(rule R63), so no operand can be out of range.
-/

namespace Sys2Proof

/-- One constructor per row of the opcode table. -/
inductive Instr where
  /-- Rule R154. -/
  | nop
  /-- Rule R150. -/
  | rst
  /-- Rule R151. -/
  | cclr
  /-- Rule R80. -/
  | osc (code : Byte)
  /-- Rule R84. -/
  | line (v : Byte)
  /-- Rule R96. -/
  | fetch
  /-- Rule R111. -/
  | pix
  /-- Rule R152. -/
  | hwr (sel : BitVec 4) (addr : Half) (data : Byte)
  /-- Rule R153. -/
  | hrd (sel : BitVec 4) (addr : Half)
  /-- Reserved `op` 0x9 (rules R65, R154), and so on up to 0xF. -/
  | rsv9
  | rsvA
  | rsvB
  | rsvC
  | rsvD
  | rsvE
  | rsvF
deriving DecidableEq, Repr

/-- The three word formats of rule R62. -/
inductive Format where
  | n
  | a
  | m
deriving DecidableEq, Repr

/-- The spaces a host access can select (20_memory.md rule R40). -/
inductive Space where
  | slot
  | hen
  | latch
  | star
  | coll
deriving DecidableEq, Repr

/-- The pseudo-operations of rule R68. The rule gives `i`, `h` and `n` no range: each takes the values with which every address of
its expansion fits the 16-bit field and no other (DESIGN CHOICE, log 16); the access reduces the address (rule R40). -/
inductive Pseudo where
  | pixn (n : Nat)
  | fetchn (n : Nat)
  | scan (v : Byte)
  | frame (v0 v1 : Byte)
  | slotw (i : BitVec 13) (b0 b1 b2 b3 b4 b5 b6 b7 : Byte)
  | henw (h : Fin 65280) (lo hi : Byte)
  | latw (n : Half) (d : Byte)
deriving DecidableEq, Repr

end Sys2Proof
end

