-- ==== Sys2Proof/WellFormed.lean ====
section
/-!
DEFINITION. What is well-formed: a descriptor (00_scope.md rule R6, 40_oscillator.md rule R78), an operation, a command
word as the assembler writes it (30_encoding.md rule R62).
-/

namespace Sys2Proof

/-- The constraints of rules R5, R6, R21 and R78(e) on a descriptor, and that its step rates are those of rule R76. That a
length is a power of two is in the type: `Cfg` holds the exponent. That every hook is total is in the type as well.
`HSCALE` is any positive number, as rule R5 has it; rule R40 asks a power of two of every OPEN size and `FB` has
`256 * HSCALE` entries, so `HSCALE` free of that is a DESIGN CHOICE (safe, log 2). -/
structure Cfg.WF (c : Cfg) : Prop where
  hscale_pos : 0 < c.hscale
  subpix_pos : 0 < c.subpix
  subpix_dvd : c.subpix ∣ c.hscale
  ra_nonneg : 0 ≤ c.ra
  rb_nonneg : 0 ≤ c.rb
  cext_pos : 0 < c.cext
  pot_nonneg : ∀ n, 0 ≤ (c.inputs.pot n).1 ∧ 0 ≤ (c.inputs.pot n).2
  fvco_bound : ∀ cv, 0 ≤ cv → cv ≤ 5 →
    0 ≤ c.fvco cv c.cext ∧ c.fvco cv c.cext < (baseClock * c.hscale * 256 : Nat)
  stepRates_eq : ∀ code r, c.stepRates code r = Machine.stepRate c code r
  slXor_legal : c.slXor = 0x00#8 ∨ c.slXor = 0xFF#8
  bankShift_min : 14 ≤ c.bankShift
  rom_len : c.bankShift + 3 ≤ c.romBits
  nColors_pos : 0 < c.nColors
  finalColor_lt : ∀ rgb l, c.hooks.finalColor rgb l < c.nColors
  fgColorA_lt : ∀ fgc l, c.hooks.fgColorA fgc l < c.nColors
  fgColorB_lt : ∀ fgc l, c.hooks.fgColorB fgc l < c.nColors
  starColor_lt : c.hooks.starColor < c.nColors
  gradient_lt : ∀ v h l, c.hooks.gradient v h l < c.nColors
  fb_lt : ∀ x, c.powerOn.fb x < c.nColors

/-- The format of an operation (rule R64). -/
def Instr.format : Instr → Format
  | .osc _ | .line _ => .a
  | .hwr _ _ _ | .hrd _ _ => .m
  | .nop | .rst | .cclr | .fetch | .pix => .n
  | .rsv9 | .rsvA | .rsvB | .rsvC | .rsvD | .rsvE | .rsvF => .n

/-- Every operation is well-formed: no operand value and no encoding is illegal (rules R65, R126), and the operands' types
have the widths of rule R61. -/
def Instr.wellFormed : Instr → Bool
  | .nop | .rst | .cclr | .fetch | .pix => true
  | .osc _ | .line _ => true
  | .hwr _ _ _ | .hrd _ _ => true
  | .rsv9 | .rsvA | .rsvB | .rsvC | .rsvD | .rsvE | .rsvF => true

/-- The bits of the command word that an operation uses (rules R61, R62): the others are ignored. -/
def Instr.usedBits : Instr → Word
  | .osc _ | .line _ => 0xF00000FF#32
  | .hwr _ _ _ => 0xFFFFFFFF#32
  | .hrd _ _ => 0xFFFFFF00#32
  | .nop | .rst | .cclr | .fetch | .pix => 0xF0000000#32
  | .rsv9 | .rsvA | .rsvB | .rsvC | .rsvD | .rsvE | .rsvF => 0xF0000000#32

/-- The bits used by a word with operation code `op`. -/
def usedBitsOfOp (op : BitVec 4) : Word :=
  if op = 3#4 ∨ op = 4#4 then 0xF00000FF#32
  else if op = 7#4 then 0xFFFFFFFF#32
  else if op = 8#4 then 0xFFFFFF00#32
  else 0xF0000000#32

/-- A word as the assembler writes it: every ignored bit is zero (rule R62). -/
def canonicalWord (w : Word) : Bool := w &&& usedBitsOfOp (w.extractLsb' 28 4) == w

end Sys2Proof
end

