-- ==== Sys2Proof/Decode.lean ====
section
/-!
DEFINITION. Decoding and encoding of command words (30_encoding.md rules R61 to R66), the expansion of the pseudo-operations
(rule R68) and the assembler's lines (rule R67). Every word decodes: no encoding is illegal (rule R65).
-/

namespace Sys2Proof

/-- Field `op`, bits 31:28. -/
def opField (w : Word) : BitVec 4 := w.extractLsb' 28 4

/-- Field `sel`, bits 27:24. -/
def selField (w : Word) : BitVec 4 := w.extractLsb' 24 4

/-- Field `addr`, bits 23:8. -/
def addrField (w : Word) : Half := w.extractLsb' 8 16

/-- Field `arg`, bits 7:0. -/
def argField (w : Word) : Byte := w.extractLsb' 0 8

/-- The opcode map of rule R64, on the number in `op`. -/
def decodeFields (op : Nat) (sel : BitVec 4) (addr : Half) (arg : Byte) : Instr :=
  match op with
  | 0x0 => .nop
  | 0x1 => .rst
  | 0x2 => .cclr
  | 0x3 => .osc arg
  | 0x4 => .line arg
  | 0x5 => .fetch
  | 0x6 => .pix
  | 0x7 => .hwr sel addr arg
  | 0x8 => .hrd sel addr
  | 0x9 => .rsv9
  | 0xA => .rsvA
  | 0xB => .rsvB
  | 0xC => .rsvC
  | 0xD => .rsvD
  | 0xE => .rsvE
  | _ => .rsvF

/-- The operation a command word stands for. -/
def decodeWord (w : Word) : Instr :=
  decodeFields (opField w).toNat (selField w) (addrField w) (argField w)

/-- Why a bit string is no command word: it is longer than the one length of rule R66. -/
inductive DecodeError where
  | notOneWord (bits : Nat)
deriving DecidableEq, Repr

/-- Decoding of a bit string of `bits` bits. Rule R66 has one length, 32 bits; a shorter string is read as a word whose higher
bits are zero, and a longer one is refused (DESIGN CHOICE, log 17). -/
def decode (bits w : Nat) : Except DecodeError Instr :=
  if bits ≤ 32 then .ok (decodeWord (BitVec.ofNat 32 (w % 2 ^ bits))) else .error (.notOneWord bits)

/-- The decoder on a word of the opcode table (one 32-bit word, rule R66). -/
def decodeTableWord (nbits w : Nat) : Option Instr :=
  match decode nbits w with
  | .ok i => some i
  | .error _ => none

/-- A command word from its four fields (rule R61). -/
def packWord (op sel : BitVec 4) (addr : Half) (arg : Byte) : Word := op ++ sel ++ addr ++ arg

/-- The word of an operation as the assembler writes it, ignored fields zero (rules R62, R64). -/
def encode : Instr → Word
  | .nop => packWord 0x0#4 0#4 0#16 0#8
  | .rst => packWord 0x1#4 0#4 0#16 0#8
  | .cclr => packWord 0x2#4 0#4 0#16 0#8
  | .osc code => packWord 0x3#4 0#4 0#16 code
  | .line v => packWord 0x4#4 0#4 0#16 v
  | .fetch => packWord 0x5#4 0#4 0#16 0#8
  | .pix => packWord 0x6#4 0#4 0#16 0#8
  | .hwr sel addr data => packWord 0x7#4 sel addr data
  | .hrd sel addr => packWord 0x8#4 sel addr 0#8
  | .rsv9 => packWord 0x9#4 0#4 0#16 0#8
  | .rsvA => packWord 0xA#4 0#4 0#16 0#8
  | .rsvB => packWord 0xB#4 0#4 0#16 0#8
  | .rsvC => packWord 0xC#4 0#4 0#16 0#8
  | .rsvD => packWord 0xD#4 0#4 0#16 0#8
  | .rsvE => packWord 0xE#4 0#4 0#16 0#8
  | .rsvF => packWord 0xF#4 0#4 0#16 0#8

/-- The selector of a space (20_memory.md rule R40). -/
def selOf : Space → BitVec 4
  | .slot => 0#4
  | .hen => 1#4
  | .latch => 2#4
  | .star => 3#4
  | .coll => 4#4

/-- `SCAN v`: one whole scanline (rule R68). -/
def scanProgram (v : Byte) : List Instr := .line v :: List.replicate 256 .pix

/-- `HWR` to successive addresses from `a` on. -/
def writeRun (sp : Space) : Nat → List Byte → List Instr
  | _, [] => []
  | a, b :: bs => .hwr (selOf sp) (BitVec.ofNat 16 a) b :: writeRun sp (a + 1) bs

/-- `n` scanlines from `v` on, ascending. -/
def scansFrom (v : Nat) : Nat → List Instr
  | 0 => []
  | n + 1 => scanProgram (BitVec.ofNat 8 v) ++ scansFrom (v + 1) n

/-- The expansion of a pseudo-operation (rule R68). `FRAME v0, v1` with `v0` above `v1` has no line and expands to nothing
(DESIGN CHOICE, log 16: the table gives the run from `v0` up to `v1` only). `HENW h` is taken for `h` below 65280 only, where
`256 + h` fits the address field (DESIGN CHOICE, log 16: the rule gives `h` no range). -/
def Pseudo.expand : Pseudo → List Instr
  | .pixn n => List.replicate n .pix
  | .fetchn n => List.replicate n .fetch
  | .scan v => scanProgram v
  | .frame v0 v1 => scansFrom v0.toNat (v1.toNat + 1 - v0.toNat)
  | .slotw i b0 b1 b2 b3 b4 b5 b6 b7 => writeRun .slot (8 * i.toNat) [b0, b1, b2, b3, b4, b5, b6, b7]
  | .henw h lo hi => [.hwr (selOf .hen) (BitVec.ofNat 16 h.val) lo, .hwr (selOf .hen) (BitVec.ofNat 16 (256 + h.val)) hi]
  | .latw n d => [.hwr (selOf .latch) n d]

/-! ### The assembler's lines (rule R67) -/

/-- Is the character a blank. -/
def isBlank (ch : Char) : Bool := ch == ' ' || ch == '\t'

/-- Without blanks at either end. -/
def trimBlanks (cs : List Char) : List Char := ((cs.dropWhile isBlank).reverse.dropWhile isBlank).reverse

/-- The value of a digit in base 10 or 16. -/
def digitValue (base : Nat) (ch : Char) : Option Nat :=
  let n := ch.toNat
  let v := if 48 ≤ n ∧ n ≤ 57 then n - 48
    else if 65 ≤ n ∧ n ≤ 70 then n - 55
    else if 97 ≤ n ∧ n ≤ 102 then n - 87
    else base
  if v < base then some v else none

/-- The number that digits spell after the digits that gave `acc`. -/
def digitsFrom (base acc : Nat) : List Char → Option Nat
  | [] => some acc
  | ch :: cs =>
    match digitValue base ch with
    | some v => digitsFrom base (acc * base + v) cs
    | none => none

/-- A number, decimal or `0x` hexadecimal. -/
def parseNumber : List Char → Option Nat
  | [] => none
  | ['0', 'x'] => none
  | '0' :: 'x' :: cs => digitsFrom 16 0 cs
  | cs => digitsFrom 10 0 cs

/-- A number below `bound`. -/
def parseBelow (bound : Nat) (cs : List Char) : Option Nat :=
  match parseNumber cs with
  | some n => if n < bound then some n else none
  | none => none

/-- A selector: the name of a space, or its number. -/
def parseSel (cs : List Char) : Option Nat :=
  if cs = "SLOT".toList then some 0
  else if cs = "HEN".toList then some 1
  else if cs = "LATCH".toList then some 2
  else if cs = "STAR".toList then some 3
  else if cs = "COLL".toList then some 4
  else parseBelow 16 cs

/-- The pieces of a text between commas. -/
def splitCommas : List Char → List (List Char)
  | [] => [[]]
  | ch :: cs =>
    if ch = ',' then [] :: splitCommas cs
    else
      match splitCommas cs with
      | [] => [[ch]]
      | p :: ps => (ch :: p) :: ps

/-- All of a list of results, or nothing if one is missing. -/
def allSome {α : Type} : List (Option α) → Option (List α)
  | [] => some []
  | none :: _ => none
  | some x :: xs =>
    match allSome xs with
    | some ys => some (x :: ys)
    | none => none

/-- An operation from its mnemonic and operand texts. -/
def parseOperation (name : List Char) (args : List (List Char)) : Option Instr :=
  if name = "NOP".toList ∧ args = [] then some .nop
  else if name = "RST".toList ∧ args = [] then some .rst
  else if name = "CCLR".toList ∧ args = [] then some .cclr
  else if name = "FETCH".toList ∧ args = [] then some .fetch
  else if name = "PIX".toList ∧ args = [] then some .pix
  else
    match args with
    | [a] =>
      if name = "OSC".toList then (parseBelow 256 a).map fun n => .osc (BitVec.ofNat 8 n)
      else if name = "LINE".toList then (parseBelow 256 a).map fun n => .line (BitVec.ofNat 8 n)
      else none
    | [a, b] =>
      match parseSel a, parseBelow 65536 b with
      | some sel, some addr =>
        if name = "HRD".toList then some (.hrd (BitVec.ofNat 4 sel) (BitVec.ofNat 16 addr)) else none
      | _, _ => none
    | [a, b, d] =>
      match parseSel a, parseBelow 65536 b, parseBelow 256 d with
      | some sel, some addr, some data =>
        if name = "HWR".toList then some (.hwr (BitVec.ofNat 4 sel) (BitVec.ofNat 16 addr) (BitVec.ofNat 8 data)) else none
      | _, _, _ => none
    | _ => none

/-- A pseudo-operation from its mnemonic and operand texts (rule R68). Every number of the expansion has to fit its field of the
command word, and that is the only bound on an operand that becomes one (DESIGN CHOICE, log 16). -/
def parsePseudo (name : List Char) (args : List (List Char)) : Option Pseudo :=
  match allSome (args.map parseNumber) with
  | some [n] =>
    if name = "PIXN".toList then some (.pixn n)
    else if name = "FETCHN".toList then some (.fetchn n)
    else if name = "SCAN".toList ∧ n < 256 then some (.scan (BitVec.ofNat 8 n))
    else none
  | some [a, b] =>
    if name = "FRAME".toList ∧ a < 256 ∧ b < 256 then some (.frame (BitVec.ofNat 8 a) (BitVec.ofNat 8 b))
    else if name = "LATW".toList ∧ a < 65536 ∧ b < 256 then some (.latw (BitVec.ofNat 16 a) (BitVec.ofNat 8 b))
    else none
  | some [h, lo, hi] =>
    if hh : h < 65280 then
      if name = "HENW".toList ∧ lo < 256 ∧ hi < 256 then
        some (.henw ⟨h, hh⟩ (BitVec.ofNat 8 lo) (BitVec.ofNat 8 hi))
      else none
    else none
  | some (i :: bytes) =>
    match bytes.map (BitVec.ofNat 8) with
    | [b0, b1, b2, b3, b4, b5, b6, b7] =>
      if name = "SLOTW".toList ∧ 8 * i + 7 < 65536 ∧ bytes.all (fun b => decide (b < 256)) = true then
        some (.slotw (BitVec.ofNat 13 i) b0 b1 b2 b3 b4 b5 b6 b7)
      else none
    | _ => none
  | _ => none

/-- The operands of a line after its mnemonic. -/
def operandTexts (cs : List Char) : List (List Char) :=
  if trimBlanks cs = [] then [] else (splitCommas cs).map trimBlanks

/-- The operations of a line without its comment; an empty line has none. -/
def assembleText (cs : List Char) : Option (List Instr) :=
  let body := trimBlanks cs
  let name := body.takeWhile fun ch => !isBlank ch
  let args := operandTexts (body.dropWhile fun ch => !isBlank ch)
  if body = [] then some []
  else
    match parseOperation name args with
    | some i => some [i]
    | none => (parsePseudo name args).map Pseudo.expand

/-- The command words of a line; a comment runs from `;` to the end (rules R67, R68). -/
def assembleLine (line : String) : Option (List Word) :=
  (assembleText (line.toList.takeWhile fun ch => ch != ';')).map fun is => is.map encode

end Sys2Proof
end

