-- ==== Sys2Proof/Machine/Board.lean ====
section
/-!
DEFINITION. The descriptor of the machine: an opaque constant that is well-formed by its type, so that an ill-formed one is
refused before any run (00_scope.md rule R6, 93_implementation_defined.md U2) and every well-formed one is admitted.
-/

namespace Sys2Proof

/-- A descriptor of which only its being well-formed matters: it shows that there is one, which Lean asks of `Board`. -/
def Cfg.trivial : Cfg :=
  { (default : Cfg) with
    hscale := 1
    subpix := 1
    ra := 0
    rb := 0
    cext := 1
    fvco := fun _ _ => 0
    stepRates := fun _ _ => 0#32
    slXor := 0#8
    bankShift := 14
    romBits := 17
    nColors := 1
    hooks :=
      { (default : Hooks) with
        finalColor := fun _ _ => 0, fgColorA := fun _ _ => 0, fgColorB := fun _ _ => 0, starColor := 0, gradient := fun _ _ _ => 0 }
    inputs := { (default : Inputs) with pot := fun _ => (0, 0) }
    powerOn := { (default : PowerOn) with fb := fun _ => 0 } }

theorem Cfg.trivial_wf : Cfg.trivial.WF where
  hscale_pos := by decide
  subpix_pos := by decide
  subpix_dvd := by decide
  ra_nonneg := le_refl 0
  rb_nonneg := le_refl 0
  cext_pos := zero_lt_one
  pot_nonneg _ := ⟨le_refl 0, le_refl 0⟩
  fvco_bound _ _ _ := ⟨le_refl 0, by norm_num [Cfg.trivial, baseClock]⟩
  stepRates_eq _ _ := by simp [Machine.stepRate, Machine.rawStep, Cfg.trivial]
  slXor_legal := .inl rfl
  bankShift_min := by decide
  rom_len := by decide
  nColors_pos := by decide
  finalColor_lt _ _ := Nat.zero_lt_one
  fgColorA_lt _ _ := Nat.zero_lt_one
  fgColorB_lt _ _ := Nat.zero_lt_one
  starColor_lt := Nat.zero_lt_one
  gradient_lt _ _ _ := Nat.zero_lt_one
  fb_lt _ := Nat.zero_lt_one

/-- A well-formed descriptor with `SUBPIX = HSCALE`, as rule R5 and 90_conflicts.md C3 decide (D12, log 11). The values after
`:=` only show that there is one. -/
structure Board where
  cfg : Cfg := Cfg.trivial
  wf : cfg.WF := by exact Cfg.trivial_wf
  subpix_eq : cfg.subpix = cfg.hscale := by rfl
deriving Inhabited

/-- Every value the spec leaves OPEN, any value, or an input: a free value, of which only its type is known (rule R5, U1, U12,
U13; DESIGN CHOICE, safe, log 2). -/
opaque Config.board : Board

/-- The descriptor of the machine. -/
def Config.cfg : Cfg := Config.board.cfg

end Sys2Proof
end

