-- ==== Sys2Proof/Machine/State.lean ====
section
/-!
DEFINITION. The state of the machine (10_state.md rules R9 to R21) as plain data, the reasons a step can stop, and the state
after reset (rule R24). Nothing else is state (rules R22, R23).
-/

namespace Sys2Proof.Machine

/-- A byte-wide space as the bytes that differ from what an unlisted address reads as, by rising address. -/
abbrev Memory := List Host.Cell

/-- The registers of one priority level (10_state.md rule R16). -/
structure Level where
  /-- `LAT[l]`, the latched word. -/
  lat : Word
  /-- `END[l]`, the boundary bit of the last nibble fetched. -/
  endFlag : Bool
  /-- `FOFF[l]`, the fetch offset in nibbles, bit 15 the direction. -/
  foff : Half
  /-- `FRAC[l]`, the fractional position. -/
  frac : Word
  /-- `STEP[l]`, the step rate. -/
  step : Word
deriving DecidableEq, Repr, Inhabited

/-- A level of a fresh working set (rules R8, R84 step 2). -/
def Level.fresh : Level := { lat := 0#32, endFlag := false, foff := 0#16, frac := 0#32, step := 0#32 }

/-- The machine's state. The last three fields are the model's own (logs 1, 5, 6). -/
structure State where
  /-- `SLOT`, the sprite slot RAM, 128 bytes (rules R9, R41). -/
  slot : Memory
  /-- `HEN`, the enable tables, 512 bytes (rules R11, R42). -/
  hen : Memory
  /-- `STAR`, the starfield plane (rules R20, R47). -/
  star : Memory
  /-- `LATCH[0..5]`, the control latches (rule R18). -/
  latch : Latches
  /-- `COLL`, the collision register (rule R19). -/
  coll : Byte
  /-- `V`, the scanline being rendered (rule R12). -/
  v : Byte
  /-- `H`, the next board pixel (rule R12). -/
  h : Byte
  /-- `BUSY`: a scanline is in progress (rule R12). -/
  busy : Bool
  /-- `VE`, the enable vector, one bit per slot (rule R13). -/
  ve : BitVec 16
  /-- `LST`, the live levels, one bit per level (rule R14). -/
  lst : BitVec 8
  /-- `ROADLEFT` (rule R15). -/
  roadLeft : Bool
  /-- The level registers `LAT`, `END`, `FOFF`, `FRAC`, `STEP` (rule R16). -/
  levels : Vector Level 8
  /-- `OSCQ` (rule R17). -/
  oscq : Word
  /-- `SPRQ` (rule R17). -/
  sprq : Word
  /-- `PLBQ` (rule R17). -/
  plbq : Byte
  /-- `HDQ` (rule R17). -/
  hdq : Byte
  /-- `FB`, the output row, colour indices by device pixel (rule R21), in the form of a memory. -/
  fb : List (Nat × Nat)
  /-- The model's own: command words issued and not yet executed, oldest first (rules R53, R61; DESIGN CHOICE, log 1). -/
  pending : List Word
  /-- The model's own: how many `LINE` have run, which picks the foreground row (rule R45; DESIGN CHOICE, log 5). -/
  scans : Nat
  /-- The model's own: how many step rates were computed, which picks the potentiometer sample (rule R81, U13; DESIGN CHOICE,
  log 6). -/
  draws : Nat
deriving DecidableEq, Repr

/-- Nothing faults: "this core recognizes no runtime error conditions" (60_exceptions.md rule R125). The type is empty. -/
inductive Fault where
deriving DecidableEq, Repr

/-- The reasons an operation has no next state. -/
inductive Refusal where
  /-- Raised by an arm of `exec` whose instruction has no meaning yet. Safe: the model stops. No arm does so. -/
  | notModelled (mnemonic : String)
  /-- Raised by `PIX` with `BUSY = 0`: "a driver error; a model refuses it" (70_reset_and_hazards.md rule R147, U5). Safe: the
  model stops. -/
  | pixWithoutScanline
deriving DecidableEq, Repr

/-- The state after reset with a given descriptor: the table of 10_state.md rule R24. What the table calls unspecified holds
the descriptor's free values (DESIGN CHOICE, logs 4 and 7): nothing is listed in the memories, so that each address reads as
its own free value. -/
def State.resetWith (c : Cfg) : State :=
  { slot := []
    hen := []
    star := []
    latch := c.powerOn.latch
    coll := 0#8
    v := 0#8
    h := 0#8
    busy := false
    ve := 0#16
    lst := 0#8
    roadLeft := false
    levels := Vector.replicate 8 Level.fresh
    oscq := 0#32
    sprq := 0#32
    plbq := 0#8
    hdq := 0#8
    fb := []
    pending := []
    scans := 0
    draws := 0 }

/-- The machine right after reset. -/
def State.reset : State := State.resetWith Config.cfg

end Sys2Proof.Machine
end

