-- ==== Sys2Proof/Machine/Operands.lean ====
section
/-!
DEFINITION. What rule R5 of 00_scope.md fixes or decides per variant, the tables the spec decides (`EXPAND`, `CLASSIFY`),
and every address and field the operations form: pure functions of the descriptor and of operand values.
-/

namespace Sys2Proof.Machine

/-- `NSLOTS`, in the ascending order of 41_line_arbiter.md rule R84. -/
def allSlots : List (Fin 16) := [0, 1, 2, 3, 4, 5, 6, 7, 8, 9, 10, 11, 12, 13, 14, 15]

/-- `NLEVELS`, in the ascending order of 42_bit_fetcher.md rule R96. -/
def allLevels : List (Fin 8) := [0, 1, 2, 3, 4, 5, 6, 7]

/-- `HPIX`, board pixels per scanline (D3). -/
def hpix : Nat := 256

/-- `HasArea`: V1. -/
def hasArea (c : Cfg) : Bool := c.variant == .v1

/-- `HasRoadGate`: V1. -/
def hasRoadGate (c : Cfg) : Bool := c.variant == .v1

/-- `HasBoundaryWord`: V2 and V3. -/
def hasBoundaryWord (c : Cfg) : Bool := c.variant != .v1

/-- `HasCollision`: V1. -/
def hasCollision (c : Cfg) : Bool := c.variant == .v1

/-- `HasScramble`: false in V1 (D31), true in V2, OPEN in V3. -/
def hasScramble (c : Cfg) : Bool :=
  match c.variant with
  | .v1 => false
  | .v2 => true
  | .v3 => c.scrambleV3

/-- `HasStar`: V3. -/
def hasStar (c : Cfg) : Bool := c.variant == .v3

/-- `FRAC_ONE`, the value of 1.0 in the accumulator (42_bit_fetcher.md rule R101). -/
def fracOne (c : Cfg) : Word :=
  match c.variant with
  | .v1 => 0x1000000#32
  | .v2 => 0x800000#32
  | .v3 => 0x800000#32

/-- `SH_XOR` (41_line_arbiter.md rule R86). -/
def shXor : Byte := 0xFF#8

/-- `STAR_SIZE`: 0 in V1 and V2, a power of two in V3 (20_memory.md rules R40, R47). -/
def starSize (c : Cfg) : Nat :=
  match c.variant with
  | .v1 => 0
  | .v2 => 0
  | .v3 => 2 ^ c.starBits

/-- `REP`, device pixels per evaluation (43_compositor.md rule R111). -/
def rep (c : Cfg) : Nat := c.hscale / c.subpix

/-- Bit `p` of a nibble as a word. -/
def nibbleBit (n : BitVec 4) (p : Nat) : Word := (BitVec.ofBool (n.getLsbD p)).setWidth 32

/-- `EXPAND` (42_bit_fetcher.md rule R98). -/
def expand (n : BitVec 4) : Word :=
  nibbleBit n 0 ||| nibbleBit n 1 <<< 8 ||| nibbleBit n 2 <<< 16 ||| nibbleBit n 3 <<< 24

/-- `CLASSIFY` (42_bit_fetcher.md rule R103): decided for V1, OPEN for V2 and V3. -/
def classify (c : Cfg) (n : BitVec 4) : ClassBits :=
  match c.variant with
  | .v1 => { ends := !n.getLsbD 3 && n.getLsbD 2, boundary := false }
  | .v2 => c.classifyOpen n
  | .v3 => c.classifyOpen n

/-- `RomAddr(l, offs)` (20_memory.md rule R43). -/
def romAddr (c : Cfg) (l : Fin 8) (offs : Half) : Nat :=
  (l.val <<< c.bankShift ||| (offs.extractLsb' 1 14).toNat) % 2 ^ c.romBits

/-- The half of a ROM byte that bit 0 of the offset selects (20_memory.md rule R44). -/
def nibbleOf (b : Byte) (low : Bool) : BitVec 4 := if low then b.extractLsb' 0 4 else b.extractLsb' 4 4

/-- `RomNibble(l, offs)` (20_memory.md rule R44). -/
def romNibble (c : Cfg) (l : Fin 8) (offs : Half) : BitVec 4 :=
  nibbleOf (c.sprrom (romAddr c l offs)) (offs.getLsbD 0)

/-- The fetch offset after one nibble, up or down by bit 15 (42_bit_fetcher.md rule R105). -/
def stepOffset (offs : Half) : Half := offs + (if offs.getLsbD 15 then 0xFFFF#16 else 1#16)

/-- The level of a slot, `i mod 8` (10_state.md rule R9). -/
def levelOf (i : Fin 16) : Fin 8 := ⟨i.val % 8, Nat.mod_lt _ (by decide)⟩

/-- The byte address of byte `k` of slot `i` (20_memory.md rule R41). -/
def slotAddr (i : Fin 16) (k : Nat) : Nat := 8 * i.val + k

/-- A 16-bit field from its low and its high byte (20_memory.md rule R49). -/
def joinBytes (lo hi : Byte) : Half := hi ++ lo

/-- The low byte of a 16-bit field. -/
def lowByte (x : Half) : Byte := x.extractLsb' 0 8

/-- The high byte of a 16-bit field. -/
def highByte (x : Half) : Byte := x.extractLsb' 8 8

/-- The space a selector names; 5 to 15 name none (30_encoding.md rule R65). -/
def spaceOfSel (sel : BitVec 4) : Option Space :=
  match sel.toNat with
  | 0 => some .slot
  | 1 => some .hen
  | 2 => some .latch
  | 3 => some .star
  | 4 => some .coll
  | _ => none

/-- The size of a space (20_memory.md rule R40). -/
def spaceSize (c : Cfg) : Space → Nat
  | .slot => 128
  | .hen => 512
  | .latch => 8
  | .star => starSize c
  | .coll => 1

/-- `LATCH` at an address below 8; 6 and 7 hold nothing (20_memory.md rule R56). -/
def latchGet (l : Latches) (a : Nat) : Byte :=
  match a with
  | 0 => l.colBank
  | 1 => l.priBank
  | 2 => l.flip
  | 3 => l.roadDis
  | 4 => l.vOfs
  | 5 => l.hOfs
  | _ => 0#8

/-- `LATCH` with one address written; a write to 6 or 7 is dropped (20_memory.md rule R56). -/
def latchSet (l : Latches) (a : Nat) (b : Byte) : Latches :=
  match a with
  | 0 => { l with colBank := b }
  | 1 => { l with priBank := b }
  | 2 => { l with flip := b }
  | 3 => { l with roadDis := b }
  | 4 => { l with vOfs := b }
  | 5 => { l with hOfs := b }
  | _ => l

end Sys2Proof.Machine
end

