-- ==== Sys2Proof/Machine/Flags.lean ====
section
/-!
DEFINITION. Every flag computation: the two chained adders and the activity test (41_line_arbiter.md rules R85 to R87), the
write-back gate (R89), the live set and the road gate (42_bit_fetcher.md rule R97), the boundary word (R104), the
horizontal-enable latch (43_compositor.md rule R113), the road flag (R114) and the end of the scanline (R122).
-/

namespace Sys2Proof.Machine

/-- `a = sL ^ cfg.SL_XOR` (rule R85). -/
def lowAddend (c : Cfg) (sL : Byte) : Byte := sL ^^^ c.slXor

/-- `sum1 = V + a`, nine bits (rule R85). -/
def sum1 (c : Cfg) (v sL : Byte) : BitVec 9 := v.setWidth 9 + (lowAddend c sL).setWidth 9

/-- `clo = sum1[8]` (rule R85). -/
def clo (c : Cfg) (v sL : Byte) : Bool := (sum1 c v sL).getLsbD 8

/-- `b = sH ^ cfg.SH_XOR` (rule R86). -/
def highAddend (sH : Byte) : Byte := sH ^^^ shXor

/-- `sum2 = sum1 + (V << 8) + (b << 8)`, seventeen bits (rule R86). -/
def sum2 (c : Cfg) (v sL sH : Byte) : BitVec 17 :=
  (sum1 c v sL).setWidth 17 + v.setWidth 17 <<< 8 + (highAddend sH).setWidth 17 <<< 8

/-- `chi = sum2[16]` (rule R86). -/
def chi (c : Cfg) (v sL sH : Byte) : Bool := (sum2 c v sL sH).getLsbD 16

/-- A slot is active iff `clo = 1 and chi = 0` (rule R87). -/
def slotActive (c : Cfg) (v sL sH : Byte) : Bool := clo c v sL && !chi c v sL sH

/-- `idx`, the nine-bit index into `YTABLE` (rule R89, D14). -/
def tableIndex (s2 : BitVec 17) (ys : Byte) : BitVec 9 := ys.extractLsb' 3 1 ++ s2.extractLsb' 0 8

/-- `gate`, the table's bit selected by `ys[2:0]` (rule R89). -/
def gateBit (c : Cfg) (s2 : BitVec 17) (ys : Byte) : Bool :=
  (c.ytable (tableIndex s2 ys)).getLsbD (ys.extractLsb' 0 3).toNat

/-- `VE` with the bit of slot `i` set (rule R88). -/
def setSlotBit (ve : BitVec 16) (i : Fin 16) : BitVec 16 := ve ||| 1#16 <<< i.val

/-- The live set of a fetch (rule R97): `LST`, less levels 3 to 7 while the road gate is closed. -/
def liveSet (c : Cfg) (s : State) : BitVec 8 :=
  if hasRoadGate c && !s.roadLeft then s.lst &&& 0x07#8 else s.lst

/-- `LST` with the bit of level `l` cleared if its stream has ended (rule R103). -/
def clearIfEnded (lst : BitVec 8) (l : Fin 8) (ended : Bool) : BitVec 8 :=
  if ended then lst &&& ~~~(1#8 <<< l.val) else lst

/-- `END[l] << l` (rule R104). -/
def boundaryBit (e : Bool) (l : Fin 8) : Byte := (BitVec.ofBool e).setWidth 8 <<< l.val

/-- `he`, the enable bits of the slots active on this line (rule R113). -/
def enableBits (hi lo : Byte) (ve : BitVec 16) : BitVec 16 := (hi ++ lo) &&& ve

/-- `LST` after the enable latch (rule R113). -/
def latchLive (lst : BitVec 8) (he : BitVec 16) : BitVec 8 := lst ||| he.extractLsb' 0 8 ||| he.extractLsb' 8 8

/-- The area code: the hook's in V1, 0 elsewhere (rule R114). -/
def areaCode (c : Cfg) (v h : Byte) (lt : Latches) : BitVec 5 := if hasArea c then c.hooks.areaBits v h lt else 0#5

/-- `ROADLEFT` after the area step (rule R114). -/
def roadAfter (c : Cfg) (road : Bool) (area : BitVec 5) (lt : Latches) : Bool :=
  if hasArea c then road || c.hooks.offRoad area lt else road

/-- `COLL` after one evaluation (rule R119). -/
def collAfter (c : Cfg) (coll : Byte) (spr : Word) (area : BitVec 5) (lt : Latches) : Byte :=
  if hasCollision c then coll ||| c.hooks.collBits spr area lt else coll

/-- `BUSY` after a pixel, from the advanced `H` (rule R122). -/
def busyAfter (busy : Bool) (h' : Byte) : Bool := if h' = 0#8 then false else busy

end Sys2Proof.Machine
end

