-- ==== Sys2Proof/Machine/Ops.lean ====
section
/-!
DEFINITION. The named operations over memory and registers: the canonical form of a memory, byte reads and writes in every
space (20_memory.md rules R40 to R56), the level registers, the scan position (10_state.md rule R12), the fresh working set
(rules R8, R84), the reset of the registers (rule R24). The block takes no exception (60_exceptions.md rules R125 to R130), so
there is no exception entry and no return from one.
-/

namespace Sys2Proof.Machine

/-! ### A memory as a list of cells -/

/-- What address `a` holds: its cell, or what an unlisted address reads as. -/
def memRead {α : Type} (d : Nat → α) : List (Nat × α) → Nat → α
  | [], a => d a
  | (k, x) :: m, a => if a = k then x else memRead d m a

/-- A cell put in its place by address. -/
def memInsert {α : Type} : List (Nat × α) → Nat → α → List (Nat × α)
  | [], a, x => [(a, x)]
  | (k, y) :: m, a, x => if a < k then (a, x) :: (k, y) :: m else (k, y) :: memInsert m a x

/-- The cells of other addresses. -/
def memErase {α : Type} : List (Nat × α) → Nat → List (Nat × α)
  | [], _ => []
  | (k, y) :: m, a => if a = k then memErase m a else (k, y) :: memErase m a

/-- A write, which removes the cell when the value is what an unlisted address reads as. -/
def memWrite {α : Type} [DecidableEq α] (d : Nat → α) (m : List (Nat × α)) (a : Nat) (x : α) : List (Nat × α) :=
  if x = d a then memErase m a else memInsert (memErase m a) a x

/-- Addresses rise strictly from `lo` on and no cell holds what its address reads as when unlisted. -/
def memRising {α : Type} [DecidableEq α] (d : Nat → α) : Nat → List (Nat × α) → Bool
  | _, [] => true
  | lo, (k, x) :: m => decide (lo ≤ k) && !decide (x = d k) && memRising d (k + 1) m

/-- Every cell lies below address `n`. -/
def memBelow {α : Type} (n : Nat) (m : List (Nat × α)) : Bool := m.all fun cell => decide (cell.1 < n)

/-- The canonical form of a memory of size `n`. -/
def memWf {α : Type} [DecidableEq α] (d : Nat → α) (n : Nat) (m : List (Nat × α)) : Bool :=
  memRising d 0 m && memBelow n m

/-- The canonical form of a byte-wide space. -/
def Memory.wf (d : Nat → Byte) (n : Nat) (m : Memory) : Bool := memWf d n m

/-! ### Bytes of the spaces -/

/-- A byte of the sprite slot RAM (rule R41). -/
def slotByte (c : Cfg) (s : State) (a : Nat) : Byte := memRead c.powerOn.slot s.slot a

/-- A write to the sprite slot RAM. -/
def setSlotByte (c : Cfg) (s : State) (a : Nat) (b : Byte) : State :=
  { s with slot := memWrite c.powerOn.slot s.slot a b }

/-- A byte of the enable tables (rule R42). -/
def henByte (c : Cfg) (s : State) (a : Nat) : Byte := memRead c.powerOn.hen s.hen a

/-- A write to the enable tables. -/
def setHenByte (c : Cfg) (s : State) (a : Nat) (b : Byte) : State :=
  { s with hen := memWrite c.powerOn.hen s.hen a b }

/-- A byte of the starfield plane (rule R47). -/
def starByte (c : Cfg) (s : State) (a : Nat) : Byte := memRead c.powerOn.star s.star a

/-- A write to the starfield plane. -/
def setStarByte (c : Cfg) (s : State) (a : Nat) (b : Byte) : State :=
  { s with star := memWrite c.powerOn.star s.star a b }

/-- The starfield plane as the hook `StarBit` receives it: its bytes in address order (rules R20, R112). -/
def starPlane (c : Cfg) (s : State) : List Byte := (List.range (starSize c)).map (starByte c s)

/-- An entry of the output row (rule R21). -/
def fbEntry (c : Cfg) (s : State) (x : Nat) : Nat := memRead c.powerOn.fb s.fb x

/-- A write to the output row. -/
def setFbEntry (c : Cfg) (s : State) (x idx : Nat) : State := { s with fb := memWrite c.powerOn.fb s.fb x idx }

/-- The colour of device pixel `x` of the row, through the palette (rules R21, R121, R142): what an outside observer sees. -/
def outputRgb (c : Cfg) (s : State) (x : Nat) : Nat × Nat × Nat := c.palette (fbEntry c s x)

/-- `n` entries of the row from `base` on, ascending (rule R121). -/
def fillFb (c : Cfg) (base idx : Nat) : Nat → State → State
  | 0, s => s
  | r + 1, s => setFbEntry c (fillFb c base idx r s) (base + r) idx

/-! ### Host accesses -/

/-- The effective address of a host access, `addr mod size` (rules R40, R69). -/
def hostAddr (c : Cfg) (sp : Space) (addr : Half) : Nat := addr.toNat % spaceSize c sp

/-- The byte a host read of a space gives (44_system_ops.md rule R153). -/
def hostRead (c : Cfg) (s : State) (sp : Space) (addr : Half) : Byte :=
  match sp with
  | .slot => slotByte c s (hostAddr c .slot addr)
  | .hen => henByte c s (hostAddr c .hen addr)
  | .latch => latchGet s.latch (hostAddr c .latch addr)
  | .star => if 0 < starSize c then starByte c s (hostAddr c .star addr) else 0#8
  | .coll => s.coll

/-- A host write to a space (44_system_ops.md rule R152). -/
def hostWrite (c : Cfg) (s : State) (sp : Space) (addr : Half) (data : Byte) : State :=
  match sp with
  | .slot => setSlotByte c s (hostAddr c .slot addr) data
  | .hen => setHenByte c s (hostAddr c .hen addr) data
  | .latch => { s with latch := latchSet s.latch (hostAddr c .latch addr) data }
  | .star => if 0 < starSize c then setStarByte c s (hostAddr c .star addr) data else s
  | .coll => s

/-! ### Registers -/

/-- The registers of level `l`. -/
def State.level (s : State) (l : Fin 8) : Level := s.levels[l]

/-- A write of the registers of level `l`. -/
def State.setLevel (s : State) (l : Fin 8) (lv : Level) : State := { s with levels := s.levels.set l lv }

/-- The scan position at the start of a scanline (10_state.md rule R12). -/
def startScan (v : Byte) (s : State) : State := { s with v := v, h := 0#8, busy := true, scans := s.scans + 1 }

/-- The scan position after a board pixel (43_compositor.md rule R122). -/
def advanceScan (s : State) : State := { s with h := s.h + 1#8, busy := busyAfter s.busy (s.h + 1#8) }

/-- The fresh working set (41_line_arbiter.md rule R84 step 2). -/
def freshWorkingSet (s : State) : State :=
  { s with ve := 0#16, lst := 0#8, roadLeft := false, levels := Vector.replicate 8 Level.fresh }

/-- Every register to its reset value; memories, latches, the output row and the model's own fields are kept (rule R24). -/
def resetRegisters (s : State) : State :=
  freshWorkingSet
    { s with coll := 0#8, v := 0#8, h := 0#8, busy := false, oscq := 0#32, sprq := 0#32, plbq := 0#8, hdq := 0#8 }

/-- Nothing changes (44_system_ops.md rule R154). -/
def idle (s : State) : Host.Outcome State Fault Refusal := .next s

end Sys2Proof.Machine
end

