-- ==== Sys2Proof/Machine/BitFetcher.lean ====
section
/-!
DEFINITION. The bit fetcher and the operation `FETCH` (42_bit_fetcher.md rules R96 to R110).
-/

namespace Sys2Proof.Machine

/-- One iteration of the catch-up loop: read, latch, classify, advance the offset, subtract (rule R101); with the end bit of
the nibble (rule R103). -/
def fetchNibble (c : Cfg) (l : Fin 8) (lv : Level) : Level × Bool :=
  let n := romNibble c l lv.foff
  ({ lv with
      lat := expand n <<< l.val
      endFlag := (classify c n).boundary
      foff := stepOffset lv.foff
      frac := lv.frac - fracOne c },
    (classify c n).ends)

/-- More iterations than any level can need: rule R106 bounds them by 255 (V1) and 511 (V2, V3). -/
def catchUpBound : Nat := 512

/-- `while FRAC[l] >= cfg.FRAC_ONE` (rule R101), bounded; `ended` collects the end bits (rule R103). -/
def catchUp (c : Cfg) (l : Fin 8) : Nat → Level → Bool → Level × Bool
  | 0, lv, ended => (lv, ended)
  | n + 1, lv, ended =>
    if fracOne c ≤ lv.frac then catchUp c l n (fetchNibble c l lv).1 (ended || (fetchNibble c l lv).2) else (lv, ended)

/-- A live level's registers after one call and whether its stream ended (rules R100, R101). -/
def advanceLevel (c : Cfg) (l : Fin 8) (lv : Level) : Level × Bool :=
  catchUp c l catchUpBound { lv with frac := lv.frac + lv.step } false

/-- A fetch in progress: the state and the two words collected so far. -/
structure FetchAcc where
  state : State
  spr : Word
  plb : Byte

/-- A live level (rule R96 step 3): its words are collected before it advances (rules R99, R104). -/
def fetchLive (c : Cfg) (acc : FetchAcc) (l : Fin 8) : FetchAcc :=
  let lv := acc.state.level l
  let r := advanceLevel c l lv
  { state := { acc.state.setLevel l r.1 with lst := clearIfEnded acc.state.lst l r.2 }
    spr := acc.spr ||| lv.lat
    plb := acc.plb ||| boundaryBit lv.endFlag l }

/-- Level `l` of the call: skipped unless it is in the live set (rules R97, R110). -/
def fetchLevel (c : Cfg) (live : BitVec 8) (acc : FetchAcc) (l : Fin 8) : FetchAcc :=
  if live.getLsbD l.val then fetchLive c acc l else acc

/-- The eight levels of a call (rule R96 steps 1 to 3). -/
def fetchLevels (c : Cfg) (s : State) : FetchAcc :=
  allLevels.foldl (fetchLevel c (liveSet c s)) { state := s, spr := 0#32, plb := 0#8 }

/-- The boundary word returned: 0 in V1 (rules R96 step 4, R104). -/
def boundaryWord (c : Cfg) (plb : Byte) : Byte := if hasBoundaryWord c then plb else 0#8

/-- `Fetch()` (rule R96): the words returned are the new `SPRQ` and `PLBQ`. -/
def fetchAll (c : Cfg) (s : State) : State :=
  let acc := fetchLevels c s
  { acc.state with sprq := acc.spr, plbq := boundaryWord c acc.plb }

/-- `FETCH` (rule R96). -/
def execFetch (s : State) : Host.Outcome State Fault Refusal := .next (fetchAll Config.cfg s)

end Sys2Proof.Machine
end

