-- ==== Sys2Proof/Machine/Compositor.lean ====
section
/-!
DEFINITION. The priority compositor and the operation `PIX` (43_compositor.md rules R111 to R124).
-/

namespace Sys2Proof.Machine

/-- `he` at board pixel `H` (rule R113). -/
def pixelEnable (c : Cfg) (s : State) : BitVec 16 :=
  enableBits (henByte c s (256 + s.h.toNat)) (henByte c s s.h.toNat) s.ve

/-- The horizontal-enable latch (rule R113). -/
def enableLatch (c : Cfg) (s : State) : State := { s with lst := latchLive s.lst (pixelEnable c s) }

/-- The area code of the board pixel (rule R114). -/
def pixelArea (c : Cfg) (s : State) : BitVec 5 := areaCode c s.v s.h s.latch

/-- The road flag (rule R114). -/
def areaStep (c : Cfg) (s : State) : State := { s with roadLeft := roadAfter c s.roadLeft (pixelArea c s) s.latch }

/-- The foreground column (rule R115). -/
def fgColumn (c : Cfg) (s : State) : Byte :=
  if hasScramble c && s.latch.flip.getLsbD 0 then c.hooks.scrambleCol s.h s.latch else s.h

/-- `FG(V, col)`, the row of the scanline in progress (20_memory.md rule R45). -/
def fgPixel (c : Cfg) (s : State) (col : Byte) : Nat := c.inputs.fg s.scans s.v col

/-- What is computed once per board pixel and held (rules R111 steps 2 and 3, R116). -/
structure BoardPixel where
  area : BitVec 5
  fgc : Nat
  bg : Nat

/-- The area code, the foreground code and the background colour of board pixel `H` (rules R114, R115). -/
def boardPixel (c : Cfg) (s : State) : BoardPixel :=
  { area := pixelArea c s
    fgc := c.hooks.fgCode (fgPixel c s (fgColumn c s)) s.latch
    bg := c.hooks.bgColor s.v s.h (pixelArea c s) s.latch }

/-- The priority/selection code (rule R117). -/
def selectCode (c : Cfg) (p : BoardPixel) (s : State) : Nat := c.hooks.priSelect s.sprq s.plbq p.area p.fgc s.latch

/-- The multiplexed colour (rule R118). -/
def muxColor (c : Cfg) (p : BoardPixel) (s : State) : Nat :=
  c.hooks.finalColor (c.hooks.muxRgb (selectCode c p s) s.sprq p.bg p.fgc s.latch) s.latch

/-- `V3Chain(fgc, sel, mux, k)`, first matching rule wins (rule R120). -/
def v3Chain (c : Cfg) (s : State) (fgc sel mux k : Nat) : Nat :=
  if c.hooks.fs0 fgc = false then c.hooks.fgColorA fgc s.latch
  else if c.hooks.chng sel = true then mux
  else if c.hooks.fs1 fgc = false then c.hooks.fgColorB fgc s.latch
  else if c.hooks.starBit (starPlane c s) s.v s.h k s.latch = true then c.hooks.starColor
  else c.hooks.gradient s.v s.h s.latch

/-- The colour index of an evaluation, from the state after its fetch (rules R118, R120). -/
def pixelColor (c : Cfg) (p : BoardPixel) (k : Nat) (s : State) : Nat :=
  if hasStar c then v3Chain c s p.fgc (selectCode c p s) (muxColor c p s) k else muxColor c p s

/-- The collision register (rule R119). -/
def collide (c : Cfg) (p : BoardPixel) (s : State) : State :=
  { s with coll := collAfter c s.coll s.sprq p.area s.latch }

/-- The first entry of the row that evaluation `k` writes (rule R121). -/
def fbBase (c : Cfg) (s : State) (k : Nat) : Nat := s.h.toNat * c.hscale + k * rep c

/-- One evaluation of rule R111 step 4: fetch, collision, colour, replication. -/
def evaluate (c : Cfg) (p : BoardPixel) (k : Nat) (s : State) : State :=
  let t := collide c p (fetchAll c s)
  fillFb c (fbBase c t k) (pixelColor c p k t) (rep c) t

/-- The first `n` evaluations of a board pixel, in ascending order (rule R116). -/
def evaluations (c : Cfg) (p : BoardPixel) : Nat → State → State
  | 0, s => s
  | k + 1, s => evaluate c p k (evaluations c p k s)

/-- `PIX` with a scanline in progress (rule R111). -/
def producePixel (c : Cfg) (s : State) : State :=
  let t := areaStep c (enableLatch c s)
  advanceScan (evaluations c (boardPixel c t) c.subpix t)

/-- `PIX` (rule R111); with `BUSY = 0` it is not defined and is refused (70_reset_and_hazards.md rule R147, U5). -/
def execPix (s : State) : Host.Outcome State Fault Refusal :=
  if s.busy then .next (producePixel Config.cfg s) else .refused .pixWithoutScanline

end Sys2Proof.Machine
end

