-- ==== Sys2Proof/Machine/Oscillator.lean ====
section
/-!
DEFINITION. The operation `OSC` (40_oscillator.md rules R80, R81); its function `StepRate` is in Machine/StepRate.lean.
-/

namespace Sys2Proof.Machine

/-- The step rate of a code with the resistances of the next evaluation: rule R76's, by `Cfg.WF.stepRates_eq`. -/
def nextStepRate (c : Cfg) (code : Byte) (s : State) : Word := c.stepRates code (resistances c s.draws)

/-- `OSCQ <- StepRate(code)` (rule R80). -/
def oscillate (c : Cfg) (code : Byte) (s : State) : State :=
  { s with oscq := nextStepRate c code s, draws := s.draws + 1 }

/-- `OSC code` (rule R80). -/
def execOsc (code : Byte) (s : State) : Host.Outcome State Fault Refusal := .next (oscillate Config.cfg code s)

end Sys2Proof.Machine
end

