-- ==== Sys2Proof/Machine/LineArbiter.lean ====
section
/-!
DEFINITION. The line arbiter and the operation `LINE` (41_line_arbiter.md rules R84 to R94).
-/

namespace Sys2Proof.Machine

/-- Byte `k` of slot `i` (rule R84 step 3; the fields are those of 10_state.md rule R10). -/
def slotField (c : Cfg) (s : State) (i : Fin 16) (k : Nat) : Byte := slotByte c s (slotAddr i k)

/-- The row step of slot `i`, bytes 4 and 5. -/
def rowStepOf (c : Cfg) (s : State) (i : Fin 16) : Half := joinBytes (slotField c s i 4) (slotField c s i 5)

/-- The offset of slot `i`, bytes 6 and 7. -/
def offsetOf (c : Cfg) (s : State) (i : Fin 16) : Half := joinBytes (slotField c s i 6) (slotField c s i 7)

/-- Is slot `i` active on the scanline in `V` (rule R87). -/
def activeSlot (c : Cfg) (s : State) (i : Fin 16) : Bool :=
  slotActive c s.v (slotField c s i 0) (slotField c s i 1)

/-- The write-back gate of slot `i` (rule R89). -/
def slotGate (c : Cfg) (s : State) (i : Fin 16) : Bool :=
  gateBit c (sum2 c s.v (slotField c s i 0) (slotField c s i 1)) (slotField c s i 3)

/-- `offset'` of slot `i` (rule R89). -/
def newOffset (c : Cfg) (s : State) (i : Fin 16) : Half :=
  if slotGate c s i then offsetOf c s i else offsetOf c s i + rowStepOf c s i

/-- The write-back: bytes 6 and 7 of the slot, when the gate is 0 (rule R89). -/
def writeBack (c : Cfg) (i : Fin 16) (s : State) : State :=
  if slotGate c s i then s
  else setSlotByte c (setSlotByte c s (slotAddr i 6) (lowByte (newOffset c s i))) (slotAddr i 7) (highByte (newOffset c s i))

/-- The registers of a level initialised for an active slot (rule R90). -/
def initialLevel (off : Half) (step : Word) : Level :=
  { lat := 0#32, endFlag := false, foff := off, frac := 0#32, step := step }

/-- Level initialisation from slot `i` (rule R90); the step rate is one evaluation of the oscillator. -/
def initLevel (c : Cfg) (l : Fin 8) (off : Half) (xs : Byte) (s : State) : State :=
  { s.setLevel l (initialLevel off (nextStepRate c xs s)) with draws := s.draws + 1 }

/-- An active slot: its `VE` bit, its write-back, its level (rules R88 to R90). -/
def activateSlot (c : Cfg) (s : State) (i : Fin 16) : State :=
  initLevel c (levelOf i) (newOffset c s i) (slotField c s i 2) (writeBack c i { s with ve := setSlotBit s.ve i })

/-- Slot `i` of the scan (rule R84 step 3). -/
def prepareSlot (c : Cfg) (s : State) (i : Fin 16) : State :=
  if activeSlot c s i then activateSlot c s i else s

/-- `LINE v` (rule R84). -/
def prepareLine (c : Cfg) (v : Byte) (s : State) : State :=
  allSlots.foldl (prepareSlot c) (freshWorkingSet (startScan v s))

/-- `LINE v` (rule R84). -/
def execLine (v : Byte) (s : State) : Host.Outcome State Fault Refusal := .next (prepareLine Config.cfg v s)

end Sys2Proof.Machine
end

