-- ==== Sys2Proof/Machine/SystemOps.lean ====
section
/-!
DEFINITION. The system and host operations `RST`, `CCLR`, `HWR`, `HRD`, `NOP` and the reserved codes (44_system_ops.md rules
R150 to R154).
-/

namespace Sys2Proof.Machine

/-- `RST` (rule R150). -/
def execRst (s : State) : Host.Outcome State Fault Refusal := .next (resetRegisters s)

/-- `CCLR` (rule R151). -/
def execCclr (s : State) : Host.Outcome State Fault Refusal := .next { s with coll := 0#8 }

/-- A host write through a selector; one that names no space is dropped (rules R152, R65). -/
def writeSel (c : Cfg) (sel : BitVec 4) (addr : Half) (data : Byte) (s : State) : State :=
  match spaceOfSel sel with
  | some sp => hostWrite c s sp addr data
  | none => s

/-- The byte of a host read through a selector; one that names no space gives 0 (rules R153, R65). -/
def readSel (c : Cfg) (sel : BitVec 4) (addr : Half) (s : State) : Byte :=
  match spaceOfSel sel with
  | some sp => hostRead c s sp addr
  | none => 0#8

/-- `HWR sel, addr, data` (rule R152). During a scanline too: 70_reset_and_hazards.md rule R145 says what it then does
(DESIGN CHOICE, unsafe, log 9). -/
def execHwr (sel : BitVec 4) (addr : Half) (data : Byte) (s : State) : Host.Outcome State Fault Refusal :=
  .next (writeSel Config.cfg sel addr data s)

/-- `HRD sel, addr` (rule R153). -/
def execHrd (sel : BitVec 4) (addr : Half) (s : State) : Host.Outcome State Fault Refusal :=
  .next { s with hdq := readSel Config.cfg sel addr s }

/-- `NOP` (rule R154). -/
def execNop (s : State) : Host.Outcome State Fault Refusal := idle s

/-- Reserved `op` 0x9 (rules R65, R154). -/
def execRsv9 (s : State) : Host.Outcome State Fault Refusal := idle s

/-- Reserved `op` 0xA (rules R65, R154). -/
def execRsvA (s : State) : Host.Outcome State Fault Refusal := idle s

/-- Reserved `op` 0xB (rules R65, R154). -/
def execRsvB (s : State) : Host.Outcome State Fault Refusal := idle s

/-- Reserved `op` 0xC (rules R65, R154). -/
def execRsvC (s : State) : Host.Outcome State Fault Refusal := idle s

/-- Reserved `op` 0xD (rules R65, R154). -/
def execRsvD (s : State) : Host.Outcome State Fault Refusal := idle s

/-- Reserved `op` 0xE (rules R65, R154). -/
def execRsvE (s : State) : Host.Outcome State Fault Refusal := idle s

/-- Reserved `op` 0xF (rules R65, R154). -/
def execRsvF (s : State) : Host.Outcome State Fault Refusal := idle s

end Sys2Proof.Machine
end

