-- ==== Sys2Proof/Machine/Dispatch.lean ====
section
/-! DEFINITION. One arm per operation of 30_encoding.md rule R64: the direct call of its meaning. -/

namespace Sys2Proof.Machine

/-- The effect of one operation. -/
def exec (i : Instr) (s : State) : Host.Outcome State Fault Refusal :=
  match i with
  | .nop => Sys2Proof.Machine.execNop s
  | .rst => Sys2Proof.Machine.execRst s
  | .cclr => Sys2Proof.Machine.execCclr s
  | .osc code => Sys2Proof.Machine.execOsc code s
  | .line v => Sys2Proof.Machine.execLine v s
  | .fetch => Sys2Proof.Machine.execFetch s
  | .pix => Sys2Proof.Machine.execPix s
  | .hwr sel addr data => Sys2Proof.Machine.execHwr sel addr data s
  | .hrd sel addr => Sys2Proof.Machine.execHrd sel addr s
  | .rsv9 => Sys2Proof.Machine.execRsv9 s
  | .rsvA => Sys2Proof.Machine.execRsvA s
  | .rsvB => Sys2Proof.Machine.execRsvB s
  | .rsvC => Sys2Proof.Machine.execRsvC s
  | .rsvD => Sys2Proof.Machine.execRsvD s
  | .rsvE => Sys2Proof.Machine.execRsvE s
  | .rsvF => Sys2Proof.Machine.execRsvF s

end Sys2Proof.Machine
end

