-- ==== Sys2Proof/Machine/Step.lean ====
section
/-!
DEFINITION. One step: the oldest pending operation is taken and executed to completion (10_state.md rule R7, 20_memory.md
rule R53); with none pending the block is idle (70_reset_and_hazards.md rule R140, 60_exceptions.md rule R135).
-/

namespace Sys2Proof.Machine

/-- One step of the machine (DESIGN CHOICE, log 1: the issued operations stand in `State.pending`). -/
def step (s : State) : Host.Outcome State Fault Refusal :=
  match s.pending with
  | [] => idle s
  | w :: ws => exec (decodeWord w) { s with pending := ws }

/-- The state with one more operation, issued before all that are pending: the next step takes it. A command is 32 bits (rule
R66); of `nbits` bits fewer the higher ones are zero, of more the lowest 32 are taken (DESIGN CHOICE, log 17). -/
def State.withFetchWord (s : State) (nbits w : Nat) : State :=
  { s with pending := BitVec.ofNat 32 (w % 2 ^ nbits) :: s.pending }

end Sys2Proof.Machine
end

