-- ==== Sys2Proof/Safety.lean ====
section
/-!
DEFINITION. The terms in which claims are stated: the invariants of the machine, the duties of the issuers
(70_reset_and_hazards.md section 2), repeated operations, and the closed forms of the fetcher's loop.
-/

namespace Sys2Proof.Machine

/-! ### Invariants -/

/-- Every memory is canonical and inside its size, and the output row holds colour indices (20_memory.md rules R40 to R48,
10_state.md rule R21). -/
structure MemoryForm (c : Cfg) (s : State) : Prop where
  slot : Memory.wf c.powerOn.slot 128 s.slot = true
  hen : Memory.wf c.powerOn.hen 512 s.hen = true
  star : Memory.wf c.powerOn.star (starSize c) s.star = true
  fb : memWf c.powerOn.fb (hpix * c.hscale) s.fb = true
  colours : ∀ x, fbEntry c s x < c.nColors

/-- Bits `l`, `8+l`, `16+l` and `24+l` of a word: the lane of level `l` (42_bit_fetcher.md rules R98, R109). -/
def laneMask (l : Fin 8) : Word := 0x01010101#32 <<< l.val

/-- Between operations every level's position is below 1.0 and its latched word stays in its lane (42_bit_fetcher.md rule
R106, 10_state.md rule R16). -/
structure LevelForm (c : Cfg) (s : State) : Prop where
  frac_lt : ∀ l, (s.level l).frac < fracOne c
  lane : ∀ l, (s.level l).lat &&& ~~~laneMask l = 0#32

/-- A live level has an active slot (41_line_arbiter.md rule R84, last paragraph). -/
def LiveHasSlot (s : State) : Prop :=
  ∀ l : Fin 8, s.lst.getLsbD l.val = true → s.ve.getLsbD l.val = true ∨ s.ve.getLsbD (8 + l.val) = true

/-- With no scanline in progress the horizontal counter is 0 (10_state.md rule R12). -/
def ScanForm (s : State) : Prop := s.busy = false → s.h = 0#8

/-- Registers that exist in every variant and are used in some stay 0 in the others (10_state.md rules R15, R17, R19,
42_bit_fetcher.md rules R103, R104). -/
structure VariantForm (c : Cfg) (s : State) : Prop where
  road : hasArea c = false → s.roadLeft = false
  coll : hasCollision c = false → s.coll = 0#8
  plbq : hasBoundaryWord c = false → s.plbq = 0#8
  endFlag : hasBoundaryWord c = false → ∀ l, (s.level l).endFlag = false

/-! ### Duties of the issuers -/

/-- The duty attached to one operation: `PIX` only during a scanline, `HWR` only outside one (rules R145, R147). -/
def Duty (s : State) : Instr → Prop
  | .pix => s.busy = true
  | .hwr _ _ _ => s.busy = false
  | .nop | .rst | .cclr | .osc _ | .line _ | .fetch | .hrd _ _ => True
  | .rsv9 | .rsvA | .rsvB | .rsvC | .rsvD | .rsvE | .rsvF => True

/-- The scanline numbers a list of operations prepares, in order. -/
def linesOf : List Instr → List Byte
  | [] => []
  | .line v :: is => v :: linesOf is
  | _ :: is => linesOf is

/-- Scanlines in strictly increasing order, so each at most once (rules R143, R144). -/
def ascendingLines : List Byte → Bool
  | [] => true
  | [_] => true
  | v :: w :: vs => decide (v < w) && ascendingLines (w :: vs)

/-- The agents that issue operations (10_state.md rule R7). -/
inductive Agent where
  | scanDriver
  | host
deriving DecidableEq, Repr

/-- Which agent issues which operation (30_encoding.md rule R60, 60_exceptions.md rule R131; a reserved code is a `NOP`).
Nothing enforces it: an agent that issues another's operation is that agent. -/
def mayIssue : Agent → Instr → Bool
  | .scanDriver, .osc _ | .scanDriver, .line _ | .scanDriver, .fetch | .scanDriver, .pix => true
  | .scanDriver, .hwr _ _ _ | .scanDriver, .hrd _ _ | .scanDriver, .cclr => false
  | .host, .hwr _ _ _ | .host, .hrd _ _ | .host, .cclr => true
  | .host, .osc _ | .host, .line _ | .host, .fetch | .host, .pix => false
  | _, .nop | _, .rst | _, .rsv9 | _, .rsvA | _, .rsvB | _, .rsvC | _, .rsvD | _, .rsvE | _, .rsvF => true

/-! ### Repeated operations -/

/-- An operation issued `n` times. -/
def execTimes (i : Instr) : Nat → State → Host.Outcome State Fault Refusal
  | 0, s => .next s
  | n + 1, s =>
    match execTimes i n s with
    | .next t => exec i t
    | .fault f => .fault f
    | .refused r => .refused r

/-! ### Closed forms of the catch-up loop -/

/-- How many nibbles a live level fetches in one call (42_bit_fetcher.md rules R100, R101). -/
def nibblesDue (c : Cfg) (lv : Level) : Nat := (lv.frac + lv.step).toNat / (fracOne c).toNat

/-- The fetch offset after `j` nibbles (rule R105). -/
def offsetAfter (offs : Half) : Nat → Half
  | 0 => offs
  | j + 1 => stepOffset (offsetAfter offs j)

/-- The `j`-th nibble a level fetches in one call, from 0 (rule R102). -/
def nibbleAt (c : Cfg) (l : Fin 8) (lv : Level) (j : Nat) : BitVec 4 := romNibble c l (offsetAfter lv.foff j)

/-- One of the first `n` nibbles ends the stream (rule R103). -/
def endsWithin (c : Cfg) (l : Fin 8) (lv : Level) : Nat → Bool
  | 0 => false
  | n + 1 => endsWithin c l lv n || (classify c (nibbleAt c l lv n)).ends

/-- The composite word of the live levels (rules R96, R99). -/
def compositeWord (c : Cfg) (s : State) : Word :=
  allLevels.foldl (fun w l => if (liveSet c s).getLsbD l.val then w ||| (s.level l).lat else w) 0#32

/-- The boundary bits of the live levels (rule R104). -/
def compositeBoundary (c : Cfg) (s : State) : Byte :=
  allLevels.foldl (fun w l => if (liveSet c s).getLsbD l.val then w ||| boundaryBit (s.level l).endFlag l else w) 0#8

/-! ### Closed forms of the slot scan -/

/-- The slot of level `l` in the upper half, `l + 8` (41_line_arbiter.md rule R91). -/
def upperSlot (l : Fin 8) : Fin 16 := ⟨l.val + 8, by omega⟩

/-- The slot of level `l` in the lower half. -/
def lowerSlot (l : Fin 8) : Fin 16 := ⟨l.val, by omega⟩

/-- The slot whose values level `l` holds after `LINE`: the higher active one (rule R91). -/
def winner (c : Cfg) (s : State) (l : Fin 8) : Option (Fin 16) :=
  if activeSlot c s (upperSlot l) then some (upperSlot l)
  else if activeSlot c s (lowerSlot l) then some (lowerSlot l)
  else none

/-- Slot `i` is active and its gate is 0, so its offset is written back (rule R89). -/
def writesBack (c : Cfg) (s : State) (i : Fin 16) : Bool := activeSlot c s i && !slotGate c s i

/-- How many slots below `n` are active: so many step rates were computed before slot `n`. -/
def activeBelow (c : Cfg) (s : State) : Nat → Nat
  | 0 => 0
  | n + 1 => activeBelow c s n + (if h : n < 16 then (if activeSlot c s ⟨n, h⟩ then 1 else 0) else 0)

/-- The state as `LINE v` finds the slots: the scan position set, the working set fresh (rule R84 steps 1 and 2). -/
def lineStart (v : Byte) (s : State) : State := freshWorkingSet (startScan v s)

/-! ### Closed forms of a board pixel -/

/-- The state after the horizontal-enable latch and the area step of `PIX` (43_compositor.md rule R111 steps 1 and 2). -/
def latched (c : Cfg) (s : State) : State := areaStep c (enableLatch c s)

/-- The state after `n` fetches. -/
def fetches (c : Cfg) : Nat → State → State
  | 0, s => s
  | n + 1, s => fetchAll c (fetches c n s)

/-- The area code of board pixel `H`: the hook's in V1, 0 elsewhere (rule R114). -/
def ruleArea (c : Cfg) (s : State) : BitVec 5 := if c.variant = .v1 then c.hooks.areaBits s.v s.h s.latch else 0#5

/-- The foreground column of board pixel `H` (rule R115). -/
def ruleColumn (c : Cfg) (s : State) : Byte :=
  if (c.variant = .v2 ∨ (c.variant = .v3 ∧ c.scrambleV3 = true)) ∧ s.latch.flip.getLsbD 0 = true then
    c.hooks.scrambleCol s.h s.latch
  else s.h

/-- The colour index of evaluation `k` of board pixel `H` from its composite and boundary words, written out from rules R114
to R120. -/
def ruleColour (c : Cfg) (s : State) (spr : Word) (plb : Byte) (k : Nat) : Nat :=
  let fgc := c.hooks.fgCode (c.inputs.fg s.scans s.v (ruleColumn c s)) s.latch
  let bg := c.hooks.bgColor s.v s.h (ruleArea c s) s.latch
  let sel := c.hooks.priSelect spr plb (ruleArea c s) fgc s.latch
  let mux := c.hooks.finalColor (c.hooks.muxRgb sel spr bg fgc s.latch) s.latch
  if c.variant = .v3 then
    if c.hooks.fs0 fgc = false then c.hooks.fgColorA fgc s.latch
    else if c.hooks.chng sel = true then mux
    else if c.hooks.fs1 fgc = false then c.hooks.fgColorB fgc s.latch
    else if c.hooks.starBit (starPlane c s) s.v s.h k s.latch = true then c.hooks.starColor
    else c.hooks.gradient s.v s.h s.latch
  else mux

/-- The state that `PIX` fetches from (rules R113, R114): the live bits of the slots that are enabled at `H` and active on the
line are set, and in V1 the road flag is set on an off-road pixel. -/
def pixelStart (c : Cfg) (s : State) : State :=
  { s with
    lst := s.lst ||| (henByte c s s.h.toNat &&& s.ve.extractLsb' 0 8) |||
      (henByte c s (256 + s.h.toNat) &&& s.ve.extractLsb' 8 8)
    roadLeft := s.roadLeft || (decide (c.variant = .v1) && c.hooks.offRoad (ruleArea c s) s.latch) }

/-- The collision bits of the first `n` evaluations of a board pixel (43_compositor.md rule R119). -/
def collisionsOf (c : Cfg) (area : BitVec 5) (s : State) : Nat → Byte
  | 0 => 0#8
  | n + 1 => collisionsOf c area s n ||| c.hooks.collBits (fetches c (n + 1) s).sprq area s.latch

end Sys2Proof.Machine
end

