-- ==== Sys2Proof/Certificates/Slice0/Obligations.lean ====
section
/-!
DEFINITION. The statements for the provers. Each docstring names the rule it formalises. Statements that quantify over `c : Cfg`
hold for every descriptor, the machine's `Config.cfg` among them.
-/

open Sys2Proof Sys2Proof.Machine

/-! ### Encoding and stepping -/

/-- Rules R61 to R64: the word of every operation decodes to it, also through the opcode table's numbering. -/
def Obligations.DecodeOfEncodeIsIdentity : Prop :=
  ∀ i : Instr, decodeWord (encode i) = i ∧ decodeTableWord 32 (encode i).toNat = some i

/-- Rule R62: the format depends on `op` alone; the bits outside the format's fields are ignored by the decoder, whatever they
hold; the encoder writes them as zero. -/
def Obligations.UnusedFieldsAreIgnored : Prop :=
  (∀ w w' : Word, opField w = opField w' → (decodeWord w).format = (decodeWord w').format) ∧
  (∀ w x : Word,
    decodeWord ((w &&& (decodeWord w).usedBits) ||| (x &&& ~~~(decodeWord w).usedBits)) = decodeWord w) ∧
  (∀ w : Word, encode (decodeWord w) = w &&& (decodeWord w).usedBits)

/-- Rules R61, R63, R64: the sixteen operation codes and the operand fields of each. -/
def Obligations.OpcodeMapOfEveryWord : Prop :=
  ∀ (sel : BitVec 4) (addr : BitVec 16) (arg : BitVec 8),
    decodeWord (0x0#4 ++ sel ++ addr ++ arg) = .nop ∧
    decodeWord (0x1#4 ++ sel ++ addr ++ arg) = .rst ∧
    decodeWord (0x2#4 ++ sel ++ addr ++ arg) = .cclr ∧
    decodeWord (0x3#4 ++ sel ++ addr ++ arg) = .osc arg ∧
    decodeWord (0x4#4 ++ sel ++ addr ++ arg) = .line arg ∧
    decodeWord (0x5#4 ++ sel ++ addr ++ arg) = .fetch ∧
    decodeWord (0x6#4 ++ sel ++ addr ++ arg) = .pix ∧
    decodeWord (0x7#4 ++ sel ++ addr ++ arg) = .hwr sel addr arg ∧
    decodeWord (0x8#4 ++ sel ++ addr ++ arg) = .hrd sel addr ∧
    decodeWord (0x9#4 ++ sel ++ addr ++ arg) = .rsv9 ∧
    decodeWord (0xA#4 ++ sel ++ addr ++ arg) = .rsvA ∧
    decodeWord (0xB#4 ++ sel ++ addr ++ arg) = .rsvB ∧
    decodeWord (0xC#4 ++ sel ++ addr ++ arg) = .rsvC ∧
    decodeWord (0xD#4 ++ sel ++ addr ++ arg) = .rsvD ∧
    decodeWord (0xE#4 ++ sel ++ addr ++ arg) = .rsvE ∧
    decodeWord (0xF#4 ++ sel ++ addr ++ arg) = .rsvF

/-- Rule R67 and the table E of 95_test_vectors.md section 5: words written out there decode to their operations. -/
def Obligations.SampleWordsDecode : Prop :=
  decodeTableWord 32 0x40000064 = some (.line 100) ∧
  decodeTableWord 32 0x30000080 = some (.osc 0x80) ∧
  decodeTableWord 32 0x60000000 = some .pix ∧
  decodeTableWord 32 0x50000000 = some .fetch ∧
  decodeTableWord 32 0x70000634 = some (.hwr 0 0x06 0x34) ∧
  decodeTableWord 32 0x71011001 = some (.hwr 1 0x110 0x01) ∧
  decodeTableWord 32 0x84000000 = some (.hrd 4 0) ∧
  decodeTableWord 32 0x8101FF00 = some (.hrd 1 0x1FF) ∧
  decodeTableWord 32 0x4ABCDE64 = some (.line 100) ∧
  decodeTableWord 32 0x9ABCDEF0 = some .rsv9 ∧
  decodeTableWord 32 0x0FFFFFFF = some .nop

/-- Rules R67, R68: the lines written out there assemble to their words. That a number too large for its field gives no words is
the model's choice (log 16). -/
def Obligations.AssembledLines : Prop :=
  assembleLine "LINE 100" = some [0x40000064] ∧
  assembleLine "OSC 0x80" = some [0x30000080] ∧
  assembleLine "PIX" = some [0x60000000] ∧
  assembleLine "HWR SLOT, 0x06, 0x34" = some [0x70000634] ∧
  assembleLine "HWR HEN, 0x110, 0x01 ; a comment" = some [0x71011001] ∧
  assembleLine "HRD COLL, 0" = some [0x84000000] ∧
  assembleLine "LATW 4, 0x80" = some [0x72000480] ∧
  assembleLine "SLOTW 9, 0x63,0x65,0xFF,0x08,0xFF,0xFF,0x05,0x80" =
    some [0x70004863, 0x70004965, 0x70004AFF, 0x70004B08, 0x70004CFF, 0x70004DFF, 0x70004E05, 0x70004F80] ∧
  assembleLine "; only a comment" = some [] ∧
  assembleLine "LINE 256" = none

/-- Rules R7, R53, R140 (the place of the issued operations is the model's choice, log 1): a step runs the oldest pending
operation on the state from which its word is taken; with none pending it changes nothing. -/
def Obligations.StepRunsTheDecodedOperation : Prop :=
  (∀ (s : State) (w : Word) (ws : List Word), s.pending = w :: ws →
    step s = exec (decodeWord w) { s with pending := ws }) ∧
  (∀ s : State, s.pending = [] → step s = .next s) ∧
  (∀ (s : State) (w : Nat), w < 2 ^ 32 → step (s.withFetchWord 32 w) = exec (decodeWord (BitVec.ofNat 32 w)) s)

/-! ### System and host operations -/

/-- Rule R154: `NOP` and the seven reserved codes, as operations and as words. -/
def Obligations.NopAndReservedChangeNothing : Prop :=
  ∀ s : State,
    (exec .nop s = .next s ∧ exec .rsv9 s = .next s ∧ exec .rsvA s = .next s ∧ exec .rsvB s = .next s ∧
      exec .rsvC s = .next s ∧ exec .rsvD s = .next s ∧ exec .rsvE s = .next s ∧ exec .rsvF s = .next s) ∧
    ∀ w : Word, opField w = 0#4 ∨ 9#4 ≤ opField w → exec (decodeWord w) s = .next s

/-- Rule R65 (a) and (c), R154: a word with a reserved code or the code of `NOP` has no effect, whatever its other bits. That a
step takes the oldest pending word and leaves the rest is the model's choice (log 1). -/
def Obligations.ReservedWordsHaveNoEffect : Prop :=
  ∀ (s : State) (w : Word) (ws : List Word), s.pending = w :: ws → (opField w = 0#4 ∨ 9#4 ≤ opField w) →
    step s = .next { s with pending := ws }

/-- Rule R150, with the table of rule R24 (what it leaves of the model's own fields is in `OnlyLinePixRstMoveTheScan`). -/
def Obligations.RstResetsRegistersOnly : Prop :=
  (∀ w : Word, opField w = 1#4 → decodeWord w = .rst) ∧
  ∀ s : State, ∃ t : State, exec .rst s = .next t ∧
    t.coll = 0#8 ∧ t.v = 0#8 ∧ t.h = 0#8 ∧ t.busy = false ∧ t.ve = 0#16 ∧ t.lst = 0#8 ∧ t.roadLeft = false ∧
    (∀ l : Fin 8, (t.level l).lat = 0#32 ∧ (t.level l).endFlag = false ∧ (t.level l).foff = 0#16 ∧
      (t.level l).frac = 0#32 ∧ (t.level l).step = 0#32) ∧
    t.oscq = 0#32 ∧ t.sprq = 0#32 ∧ t.plbq = 0#8 ∧ t.hdq = 0#8 ∧
    t.slot = s.slot ∧ t.hen = s.hen ∧ t.latch = s.latch ∧ t.star = s.star ∧ t.fb = s.fb

/-- Rule R151. -/
def Obligations.CclrClearsCollisionOnly : Prop :=
  (∀ w : Word, opField w = 2#4 → decodeWord w = .cclr) ∧ ∀ s : State, exec .cclr s = .next { s with coll := 0#8 }

/-- Rule R152 with rules R40, R47, R56, R65 (b): the byte addressed holds the data, every other byte of every space and every
other field is as before. In V1 and V2 the space `STAR` has size 0 (rule R47). During a scanline (`BUSY = 1`) the same holds: rule R145 states it, and that it is taken rather than
refused is the model's choice (log 9). -/
def Obligations.HwrWritesOneByte : Prop :=
  (∀ c : Cfg, c.variant ≠ .v3 → starSize c = 0) ∧
  ∀ (s : State) (sel : BitVec 4) (addr : BitVec 16) (data : BitVec 8), ∃ t : State,
    exec (.hwr sel addr data) s = .next t ∧
    t = { s with slot := t.slot, hen := t.hen, star := t.star, latch := t.latch } ∧
    (∀ a, slotByte Config.cfg t a = if sel = 0#4 ∧ a = addr.toNat % 128 then data else slotByte Config.cfg s a) ∧
    (∀ a, henByte Config.cfg t a = if sel = 1#4 ∧ a = addr.toNat % 512 then data else henByte Config.cfg s a) ∧
    (∀ a, starByte Config.cfg t a =
      if sel = 3#4 ∧ 0 < starSize Config.cfg ∧ a = addr.toNat % starSize Config.cfg then data
      else starByte Config.cfg s a) ∧
    (∀ n, latchGet t.latch n = if sel = 2#4 ∧ n = addr.toNat % 8 ∧ n ≤ 5 then data else latchGet s.latch n)

/-- Rules R47, R56, R65 (b), R152: writes to `LATCH` 6 and 7, to `COLL`, to the empty `STAR` of V1 and V2 and through a selector
that names no space are dropped. That
this is so during a scanline too, where a model may refuse `HWR`, is the model's choice (log 9). -/
def Obligations.HwrToNothingIsDropped : Prop :=
  ∀ (s : State) (sel : BitVec 4) (addr : BitVec 16) (data : BitVec 8),
    (sel = 2#4 ∧ 6 ≤ addr.toNat % 8) ∨ (sel = 3#4 ∧ Config.cfg.variant ≠ .v3) ∨ 4#4 ≤ sel →
      exec (.hwr sel addr data) s = .next s

/-- Rule R153. -/
def Obligations.HrdReadsIntoHdqOnly : Prop :=
  (∀ w : Word, opField w = 8#4 → decodeWord w = .hrd (selField w) (addrField w)) ∧
  ∀ (s : State) (sel : BitVec 4) (addr : BitVec 16),
    exec (.hrd sel addr) s = .next
      { s with hdq :=
          if sel = 0#4 then slotByte Config.cfg s (addr.toNat % 128)
          else if sel = 1#4 then henByte Config.cfg s (addr.toNat % 512)
          else if sel = 2#4 then (if addr.toNat % 8 ≤ 5 then latchGet s.latch (addr.toNat % 8) else 0#8)
          else if sel = 3#4 then
            (if 0 < starSize Config.cfg then starByte Config.cfg s (addr.toNat % starSize Config.cfg) else 0#8)
          else if sel = 4#4 then s.coll
          else 0#8 }

/-- Rules R18, R40, R47, R51 (a), R145 with log 9 (no premise on `BUSY`): a byte the host wrote, in any space that holds it, is
the byte it reads, at every address that reduces to the same one, and reading it again gives it again. -/
def Obligations.WrittenByteReadsBack : Prop :=
  ∀ (s : State) (sel : BitVec 4) (addr addr' : BitVec 16) (data : BitVec 8),
    ((sel = 0#4 ∧ addr.toNat % 128 = addr'.toNat % 128) ∨ (sel = 1#4 ∧ addr.toNat % 512 = addr'.toNat % 512) ∨
      (sel = 2#4 ∧ addr.toNat % 8 = addr'.toNat % 8 ∧ addr.toNat % 8 ≤ 5) ∨
      (sel = 3#4 ∧ 0 < starSize Config.cfg ∧
        addr.toNat % starSize Config.cfg = addr'.toNat % starSize Config.cfg)) →
    ∃ t u w : State, exec (.hwr sel addr data) s = .next t ∧ exec (.hrd sel addr') t = .next u ∧ u.hdq = data ∧
      exec (.hrd sel addr') u = .next w ∧ w = u

/-! ### The oscillator -/

/-- Rules R76, R80, R81, over the real numbers (that `exec` reads the step from a field that well-formedness makes equal to the
formula is log 3, the sample count log 6): `OSC` latches the step rate and changes nothing else of the spec's state. -/
def Obligations.OscLatchesTheStepRate : Prop :=
  ∀ (s : State) (code : BitVec 8),
    let r := if Config.cfg.pots then Config.cfg.inputs.pot s.draws else (Config.cfg.ra, Config.cfg.rb)
    let iref : ℝ := 5 / (1500 + r.2)
    let iout : ℝ := iref * ((code.toNat : ℝ) / 256)
    let vref : ℝ := 5 * 1000 / (3800 + 1000 + r.1)
    let cv : ℝ := max 0 (min 5 (2200 * iout + vref))
    let freq : ℝ := Config.cfg.fvco cv Config.cfg.cext
    exec (.osc code) s = .next
      { s with
        oscq := BitVec.ofInt 32 (Int.floor (freq / (5000000 * (Config.cfg.hscale : ℝ)) * 2 ^ 24))
        draws := s.draws + 1 }

/-- Rule R76, last paragraph: the reduction modulo 2^32 never acts when the descriptor meets rule R6. -/
def Obligations.StepRateNeedsNoReduction : Prop :=
  ∀ c : Cfg, c.WF → ∀ (code : BitVec 8) (r : ℝ × ℝ), ((stepRate c code r).toNat : Int) = rawStep c code r

/-- Rule R78: (a) the step depends on the curve between 0 V and 5 V only; (b) the lower clamp never
acts; (c) past the upper clamp every larger code gives the same voltage and the same step; (d) code 0 gives the reference
voltage whatever `RB` is; (e) the divisors of a well-formed descriptor are positive. -/
def Obligations.ControlVoltageEdgeCases : Prop :=
  (∀ (c : Cfg) (f : ℝ → ℝ → ℝ) (code : BitVec 8) (r : ℝ × ℝ),
    (∀ cv, 0 ≤ cv → cv ≤ 5 → f cv c.cext = c.fvco cv c.cext) → stepRate { c with fvco := f } code r = stepRate c code r) ∧
  (∀ (code : BitVec 8) (ra rb : ℝ), 0 ≤ ra → 0 ≤ rb →
    0 < refVoltage ra ∧ 0 ≤ outCurrent code rb ∧
      controlVoltage code ra rb = min 5 (2200 * outCurrent code rb + refVoltage ra)) ∧
  (∀ (c : Cfg) (code code' : BitVec 8) (ra rb : ℝ), 0 ≤ ra → 0 ≤ rb → code ≤ code' →
    5 < 2200 * outCurrent code rb + refVoltage ra →
      controlVoltage code' ra rb = controlVoltage code ra rb ∧ stepRate c code' (ra, rb) = stepRate c code (ra, rb)) ∧
  (∀ ra rb : ℝ, 0 ≤ ra → outCurrent 0#8 rb = 0 ∧ controlVoltage 0#8 ra rb = refVoltage ra) ∧
  (∀ c : Cfg, c.WF → ∀ n : Nat, 0 < 1500 + (resistances c n).2 ∧ 0 < 4800 + (resistances c n).1)

/-- Rule R82 (a): the control voltage does not decrease with the code. -/
def Obligations.ControlVoltageNonDecreasing : Prop :=
  ∀ (code code' : BitVec 8) (ra rb : ℝ), 0 ≤ ra → 0 ≤ rb → code ≤ code' →
    controlVoltage code ra rb ≤ controlVoltage code' ra rb

/-- Rule R82 (b): with a non-decreasing curve the step rate does not decrease with the code. -/
def Obligations.StepRateNonDecreasing : Prop :=
  ∀ c : Cfg, c.WF →
    (∀ x y : ℝ, 0 ≤ x → x ≤ y → y ≤ 5 → c.fvco x c.cext ≤ c.fvco y c.cext) →
    ∀ (code code' : BitVec 8) (ra rb : ℝ), 0 ≤ ra → 0 ≤ rb → code ≤ code' →
      stepRate c code (ra, rb) ≤ stepRate c code' (ra, rb)

/-! ### The line arbiter -/

/-- Rules R85, R86: the two sums as numbers, the two carries, and the equivalent statements of rule R86. -/
def Obligations.ChainedAdders : Prop :=
  ∀ (c : Cfg) (v sL sH : BitVec 8),
    let a := (sL ^^^ c.slXor).toNat
    let b := (sH ^^^ 0xFF#8).toNat
    (sum1 c v sL).toNat = v.toNat + a ∧
    (clo c v sL = true ↔ 256 ≤ v.toNat + a) ∧
    (sum2 c v sL sH).toNat = (sum1 c v sL).toNat + v.toNat * 2 ^ 8 + b * 2 ^ 8 ∧
    (sum2 c v sL sH).toNat ≤ 131070 ∧
    (chi c v sL sH = true ↔ 65536 ≤ (sum2 c v sL sH).toNat) ∧
    (chi c v sL sH = true ↔ 256 ≤ v.toNat + b + (clo c v sL).toNat) ∧
    ((sum2 c v sL sH).extractLsb' 0 8).toNat = (v.toNat + a) % 256 ∧
    ((sum2 c v sL sH).extractLsb' 8 8).toNat = (v.toNat + b + (clo c v sL).toNat) % 256

/-- Rule R87: the activity predicate, and what it equals for each value of `SL_XOR`. -/
def Obligations.ActivityPredicate : Prop :=
  ∀ (c : Cfg) (v sL sH : BitVec 8),
    (slotActive c v sL sH = true ↔ clo c v sL = true ∧ chi c v sL sH = false) ∧
    (c.slXor = 0xFF#8 → (slotActive c v sL sH = true ↔ sL < v ∧ v < sH)) ∧
    (c.slXor = 0x00#8 → (slotActive c v sL sH = true ↔ 256 ≤ v.toNat + sL.toNat ∧ v < sH))

/-- Rules R12, R88 and R84 steps 1 and 2: `LINE v` sets the scan position, clears `LST` and `ROADLEFT`, and sets exactly the
`VE` bits of the slots active on line `v`. -/
def Obligations.LineSetsTheEnableVector : Prop :=
  ∀ (s : State) (v : BitVec 8), ∃ t : State, exec (.line v) s = .next t ∧
    t.v = v ∧ t.h = 0#8 ∧ t.busy = true ∧ t.lst = 0#8 ∧ t.roadLeft = false ∧
    ∀ i : Fin 16, t.ve.getLsbD i.val =
      slotActive Config.cfg v (slotByte Config.cfg s (8 * i.val)) (slotByte Config.cfg s (8 * i.val + 1))

/-- Rule R89: bytes 6 and 7 of a slot hold the offset plus the row step (modulo 2^16, low byte first) when the slot is active
and the table's bit is 0, and what they held otherwise; no other byte of the slot RAM changes. -/
def Obligations.LineWritesBackOffsets : Prop :=
  ∀ (s : State) (v : BitVec 8), ∃ t : State, exec (.line v) s = .next t ∧
    (∀ i : Fin 16,
      let b := fun k => slotByte Config.cfg s (8 * i.val + k)
      let s2 := sum2 Config.cfg v (b 0) (b 1)
      let idx : BitVec 9 := (b 3).extractLsb' 3 1 ++ s2.extractLsb' 0 8
      let gate := (Config.cfg.ytable idx).getLsbD ((b 3).toNat % 8)
      let offset : BitVec 16 := b 7 ++ b 6
      let rowStep : BitVec 16 := b 5 ++ b 4
      (slotByte Config.cfg t (8 * i.val + 7) ++ slotByte Config.cfg t (8 * i.val + 6) : BitVec 16) =
        if slotActive Config.cfg v (b 0) (b 1) = true ∧ gate = false then offset + rowStep else offset) ∧
    (∀ a, a % 8 < 6 ∨ 128 ≤ a → slotByte Config.cfg t a = slotByte Config.cfg s a)

/-- Rules R90 and R91: each level holds the fresh registers of its active slot, the higher one if both are active, with the
offset as written back, and zeros if neither is. Each active slot takes one step rate, in ascending order (log 6); each `LINE`
shows the next foreground row (log 5). -/
def Obligations.LineInitialisesLevels : Prop :=
  ∀ (s : State) (v : BitVec 8), ∃ t : State, exec (.line v) s = .next t ∧
    t.draws = s.draws + activeBelow Config.cfg (lineStart v s) 16 ∧ t.scans = s.scans + 1 ∧
    ∀ l : Fin 8,
      let on := fun i : Fin 16 => activeSlot Config.cfg (lineStart v s) i = true
      let held := fun i : Fin 16 =>
        (t.level l).lat = 0#32 ∧ (t.level l).endFlag = false ∧ (t.level l).frac = 0#32 ∧
        (t.level l).foff = slotByte Config.cfg t (8 * i.val + 7) ++ slotByte Config.cfg t (8 * i.val + 6) ∧
        (t.level l).step = stepRate Config.cfg (slotByte Config.cfg s (8 * i.val + 2))
          (resistances Config.cfg (s.draws + activeBelow Config.cfg (lineStart v s) i.val))
      if on (upperSlot l) then held (upperSlot l)
      else if on (lowerSlot l) then held (lowerSlot l)
      else (t.level l).lat = 0#32 ∧ (t.level l).endFlag = false ∧ (t.level l).foff = 0#16 ∧
        (t.level l).frac = 0#32 ∧ (t.level l).step = 0#32

/-- Rule R94: what `LINE` leaves alone. -/
def Obligations.LineLeavesAlone : Prop :=
  ∀ (s : State) (v : BitVec 8), ∃ t : State, exec (.line v) s = .next t ∧
    (∀ (i : Fin 16) (k : Nat), k < 6 → slotByte Config.cfg t (8 * i.val + k) = slotByte Config.cfg s (8 * i.val + k)) ∧
    (∀ i : Fin 16, writesBack Config.cfg (lineStart v s) i = false →
      slotByte Config.cfg t (8 * i.val + 6) = slotByte Config.cfg s (8 * i.val + 6) ∧
      slotByte Config.cfg t (8 * i.val + 7) = slotByte Config.cfg s (8 * i.val + 7)) ∧
    t.hen = s.hen ∧ t.latch = s.latch ∧ t.coll = s.coll ∧ t.star = s.star ∧ t.fb = s.fb ∧ t.oscq = s.oscq ∧
    t.sprq = s.sprq ∧ t.plbq = s.plbq ∧ t.hdq = s.hdq

/-- Rules R89, R144 and C1: a second `LINE` of the same line applies the write-back again, with no memory of the first. -/
def Obligations.LineTwiceWritesBackTwice : Prop :=
  ∀ (s : State) (v : BitVec 8), ∃ t u : State, exec (.line v) s = .next t ∧ exec (.line v) t = .next u ∧
    u.ve = t.ve ∧
    ∀ i : Fin 16,
      let b := fun k => slotByte Config.cfg s (8 * i.val + k)
      let offset : BitVec 16 := b 7 ++ b 6
      let rowStep : BitVec 16 := b 5 ++ b 4
      (slotByte Config.cfg u (8 * i.val + 7) ++ slotByte Config.cfg u (8 * i.val + 6) : BitVec 16) =
        if writesBack Config.cfg (lineStart v s) i = true then offset + rowStep + rowStep else offset

/-! ### The bit fetcher -/

/-- Rules R96, R97, R99, R104: `FETCH` returns the union of the words and boundary flags that the live levels held before the
call; a level is live iff its `LST` bit is set and the road gate does not hide it. -/
def Obligations.FetchReturnsEarlierWords : Prop :=
  ∀ s : State,
    let live := fun l : Fin 8 =>
      s.lst.getLsbD l.val && (decide (l.val < 3) || !(decide (Config.cfg.variant = .v1) && !s.roadLeft))
    ∃ t : State, exec .fetch s = .next t ∧
      (∀ j : Fin 32, t.sprq.getLsbD j.val = decide (∃ l : Fin 8, live l = true ∧ (s.level l).lat.getLsbD j.val = true)) ∧
      (∀ l : Fin 8, t.plbq.getLsbD l.val = (!decide (Config.cfg.variant = .v1) && live l && (s.level l).endFlag))

/-- Rules R100 and R101, with what R103, R105 and R106 derive from them (the loop runs on after an end nibble, the offset, the
bound and the remainder are the spec's own inferences): a live level in closed form. It adds its step modulo 2^32, fetches as many nibbles as whole thresholds
fit, keeps the last one's word and boundary bit, moves its offset once per nibble, keeps the remainder, and goes dead iff one
of the nibbles ends the stream; at most 255 nibbles in V1, 511 in V2 and V3. Which nibbles end a stream or set the boundary
flag is rule R103's table: decided for V1, whose values the spec takes from general knowledge (log 13), OPEN for V2 and V3. -/
def Obligations.FetchAdvancesLiveLevels : Prop :=
  (∀ (c : Cfg) (n : BitVec 4),
    (c.variant = .v1 → ((classify c n).ends = true ↔ 4#4 ≤ n ∧ n ≤ 7#4) ∧ (classify c n).boundary = false) ∧
    (c.variant ≠ .v1 → classify c n = c.classifyOpen n)) ∧
  ∀ (s : State) (l : Fin 8), (liveSet Config.cfg s).getLsbD l.val = true →
    ∃ t : State, exec .fetch s = .next t ∧
      let lv := s.level l
      let x := (lv.frac.toNat + lv.step.toNat) % 2 ^ 32
      let one := if Config.cfg.variant = .v1 then 0x1000000 else 0x800000
      let n := x / one
      (t.level l).frac.toNat = x % one ∧
      (t.level l).step = lv.step ∧
      (t.level l).foff = offsetAfter lv.foff n ∧
      (t.level l).lat = (if n = 0 then lv.lat else expand (nibbleAt Config.cfg l lv (n - 1)) <<< l.val) ∧
      (t.level l).endFlag =
        (if n = 0 then lv.endFlag else (classify Config.cfg (nibbleAt Config.cfg l lv (n - 1))).boundary) ∧
      (t.lst.getLsbD l.val = true ↔ ∀ j, j < n → (classify Config.cfg (nibbleAt Config.cfg l lv j)).ends = false) ∧
      n ≤ (if Config.cfg.variant = .v1 then 255 else 511)

/-- Rule R110 (with the gate of rule R97): a level outside the live set keeps all its registers and its `LST` bit, and nothing
the call returns or does to other levels depends on its registers. -/
def Obligations.FetchSkipsDeadLevels : Prop :=
  ∀ (s : State) (l : Fin 8) (lv : Level), (liveSet Config.cfg s).getLsbD l.val = false →
    ∃ t u : State, exec .fetch s = .next t ∧ exec .fetch (s.setLevel l lv) = .next u ∧
      t.level l = s.level l ∧ u.level l = lv ∧ t.lst.getLsbD l.val = s.lst.getLsbD l.val ∧
      u.sprq = t.sprq ∧ u.plbq = t.plbq ∧ u.lst = t.lst ∧ ∀ k : Fin 8, k ≠ l → u.level k = t.level k

/-- Rule R96 "flags written": everything but the level registers, `LST`, `SPRQ` and `PLBQ` stays, every byte of every memory
among it; `STEP` stays and `LST` bits are only cleared. -/
def Obligations.FetchLeavesAlone : Prop :=
  ∀ s : State, ∃ t : State, exec .fetch s = .next t ∧
    t = { s with lst := t.lst, levels := t.levels, sprq := t.sprq, plbq := t.plbq } ∧
    (∀ l : Fin 8, (t.level l).step = (s.level l).step) ∧
    (∀ l : Fin 8, t.lst.getLsbD l.val = true → s.lst.getLsbD l.val = true)

/-- Rule R105: the offset moves by one nibble in the direction of bit 15 of the value before; counting up it reaches 0x8000 at
most, counting down 0x7FFF at least, and from there on it alternates between the two, whose nibbles are the last and the first
of the level's bank. -/
def Obligations.OffsetStepsAndAlternates : Prop :=
  (∀ o : BitVec 16, stepOffset o = if o.getLsbD 15 then o - 1#16 else o + 1#16) ∧
  (∀ (o : BitVec 16) (n : Nat), o.toNat + n ≤ 0x8000 → (offsetAfter o n).toNat = o.toNat + n) ∧
  (∀ (o : BitVec 16) (n : Nat), 0x8000 ≤ o.toNat → 0x7FFF + n ≤ o.toNat → (offsetAfter o n).toNat = o.toNat - n) ∧
  (∀ n : Nat, offsetAfter 0x7FFF#16 n = if n % 2 = 0 then 0x7FFF#16 else 0x8000#16) ∧
  (∀ n : Nat, offsetAfter 0x8000#16 n = if n % 2 = 0 then 0x8000#16 else 0x7FFF#16) ∧
  (∀ (c : Cfg) (l : Fin 8), c.WF →
    romNibble c l 0x7FFF#16 = (c.sprrom (l.val * 2 ^ c.bankShift + 0x3FFF)).extractLsb' 0 4 ∧
    romNibble c l 0x8000#16 = (c.sprrom (l.val * 2 ^ c.bankShift)).extractLsb' 4 4)

/-- Rule R98: the layout of the composite word, the sixteen words of the table, and that the shift keeps every nibble in its
level's lane. -/
def Obligations.ExpansionAndLanes : Prop :=
  (∀ (n : BitVec 4) (l : Fin 8) (p : Fin 4) (k : Fin 8),
    (expand n <<< l.val).getLsbD (8 * p.val + k.val) = (decide (k = l) && n.getLsbD p.val)) ∧
  [0#4, 1#4, 2#4, 3#4, 4#4, 5#4, 6#4, 7#4, 8#4, 9#4, 10#4, 11#4, 12#4, 13#4, 14#4, 15#4].map expand =
    [0x00000000#32, 0x00000001#32, 0x00000100#32, 0x00000101#32, 0x00010000#32, 0x00010001#32, 0x00010100#32,
     0x00010101#32, 0x01000000#32, 0x01000001#32, 0x01000100#32, 0x01000101#32, 0x01010000#32, 0x01010001#32,
     0x01010100#32, 0x01010101#32]

/-- Rules R98, R109: in the word a fetch returns, the lane of a live level is the nibble it had latched, and the lane of any
other level is zero (from states whose latched words stay in their lanes, which every step keeps: `StepKeepsLevelForm`). -/
def Obligations.CompositeWordLanes : Prop :=
  ∀ (s : State), LevelForm Config.cfg s → ∃ t : State, exec .fetch s = .next t ∧
    ∀ (l : Fin 8) (p : Fin 4), t.sprq.getLsbD (8 * p.val + l.val) =
      ((liveSet Config.cfg s).getLsbD l.val && (s.level l).lat.getLsbD (8 * p.val + l.val))

/-- Rules R103, R108, R110: after a call in which a live level fetched an end nibble, its live bit is 0, and every later fetch
(here with no `PIX` between) leaves it dead, moves none of its registers and returns zeros in its lane and a zero boundary bit.
For every descriptor; the machine's `FETCH` is this function of its own. The property is the spec's inference. -/
def Obligations.EndOfStream : Prop :=
  (∀ s : State, exec .fetch s = .next (fetchAll Config.cfg s)) ∧
  ∀ (c : Cfg) (s : State) (l : Fin 8) (n : Nat), LevelForm c s → (liveSet c s).getLsbD l.val = true →
    endsWithin c l (s.level l) (nibblesDue c (s.level l)) = true →
    (fetchAll c s).lst.getLsbD l.val = false ∧
    (fetches c n (fetchAll c s)).lst.getLsbD l.val = false ∧
    (fetches c n (fetchAll c s)).level l = (fetchAll c s).level l ∧
    (fetches c (n + 1) (fetchAll c s)).sprq &&& laneMask l = 0#32 ∧
    (fetches c (n + 1) (fetchAll c s)).plbq.getLsbD l.val = false

/-- Rules R43, R44, C4: the ROM address is the level's bank and 14 bits of the offset, without the direction bit; the two
fields do not overlap and the address lies inside the ROM; offset bit 0 = 0 takes the high nibble. -/
def Obligations.RomAddressAndNibble : Prop :=
  ∀ c : Cfg, c.WF → ∀ (l : Fin 8) (o : BitVec 16),
    romAddr c l o = l.val * 2 ^ c.bankShift + o.toNat / 2 % 2 ^ 14 ∧
    romAddr c l o < 2 ^ c.romBits ∧
    romAddr c l (o ^^^ 0x8000#16) = romAddr c l o ∧
    (romNibble c l o).toNat =
      if o.toNat % 2 = 0 then (c.sprrom (romAddr c l o)).toNat / 16 else (c.sprrom (romAddr c l o)).toNat % 16

/-! ### The compositor -/

/-- Rule R147, D3, U5: `PIX` is defined when a scanline is in progress and refused, by its own name, when none is; `FETCH` has
no such precondition. -/
def Obligations.PixNeedsAScanline : Prop :=
  ∀ s : State, (s.busy = false → exec .pix s = .refused .pixWithoutScanline) ∧
    (s.busy = true → ∃ t : State, exec .pix s = .next t) ∧ ∃ t : State, exec .fetch s = .next t

/-- Rule R122: `PIX` advances `H`, and `BUSY` falls when the new `H` is 0. -/
def Obligations.PixAdvancesTheScanPosition : Prop :=
  ∀ s : State, s.busy = true → ∃ t : State, exec .pix s = .next t ∧
    t.h.toNat = (s.h.toNat + 1) % 256 ∧ (t.busy = false ↔ t.h = 0#8) ∧ t.v = s.v

/-- Rules R111 steps 1, 2 and 4, R113, R114, R116: `PIX` latches the enables of the slots active on the line, sets the road
flag, and then fetches once per device pixel: levels, live bits and returned words are those of `HSCALE` fetches. -/
def Obligations.PixLatchesThenFetches : Prop :=
  ∀ s : State, s.busy = true → ∃ t f : State, exec .pix s = .next t ∧
    execTimes .fetch Config.cfg.hscale (pixelStart Config.cfg s) = .next f ∧
    t.levels = f.levels ∧ t.lst = f.lst ∧ t.sprq = f.sprq ∧ t.plbq = f.plbq ∧
    t.roadLeft = (pixelStart Config.cfg s).roadLeft

/-- Rules R114 to R118, R120, R121: entry `k` of the board pixel's part of the row is the colour the rules give from the words
of the `k+1`-th fetch; every other entry of the row is as before. -/
def Obligations.PixWritesItsPartOfTheRow : Prop :=
  ∀ s : State, s.busy = true → ∃ t : State, exec .pix s = .next t ∧
    (∀ k, k < Config.cfg.hscale → ∃ f : State,
      execTimes .fetch (k + 1) (pixelStart Config.cfg s) = .next f ∧
      fbEntry Config.cfg t (s.h.toNat * Config.cfg.hscale + k) = ruleColour Config.cfg s f.sprq f.plbq k) ∧
    (∀ x, x < s.h.toNat * Config.cfg.hscale ∨ (s.h.toNat + 1) * Config.cfg.hscale ≤ x →
      fbEntry Config.cfg t x = fbEntry Config.cfg s x)

/-- Rules R111, R116, R119: in V1 `PIX` ORs the collision bits of every evaluation into `COLL`, bit by bit; elsewhere `COLL`
stays. That a board pixel has `HSCALE` evaluations is the decision `SUBPIX = HSCALE` (D12, log 11). -/
def Obligations.PixAccumulatesCollisions : Prop :=
  ∀ s : State, s.busy = true → ∃ t : State, exec .pix s = .next t ∧
    ∀ b : Fin 8, (t.coll.getLsbD b.val = true ↔
      s.coll.getLsbD b.val = true ∨
        (Config.cfg.variant = .v1 ∧ ∃ k f, k < Config.cfg.hscale ∧
          execTimes .fetch (k + 1) (pixelStart Config.cfg s) = .next f ∧
          (Config.cfg.hooks.collBits f.sprq (ruleArea Config.cfg s) s.latch).getLsbD b.val = true))

/-- Rule R111 "flags written", R124: what `PIX` leaves alone, with every byte of the slot RAM, the enable tables and the
starfield plane, and the step rates. -/
def Obligations.PixLeavesAlone : Prop :=
  ∀ s : State, s.busy = true → ∃ t : State, exec .pix s = .next t ∧
    t = { s with lst := t.lst, roadLeft := t.roadLeft, levels := t.levels, sprq := t.sprq, plbq := t.plbq,
                 coll := t.coll, fb := t.fb, h := t.h, busy := t.busy } ∧
    (∀ l : Fin 8, (t.level l).step = (s.level l).step) ∧
    (s.roadLeft = true → t.roadLeft = true)

/-- Rule R120: the five rules of the V3 chain in their order. -/
def Obligations.StarfieldChainOrder : Prop :=
  ∀ (c : Cfg) (s : State) (fgc sel mux k : Nat),
    let star := c.hooks.starBit (starPlane c s) s.v s.h k s.latch
    v3Chain c s fgc sel mux k =
      match c.hooks.fs0 fgc, c.hooks.chng sel, c.hooks.fs1 fgc, star with
      | false, _, _, _ => c.hooks.fgColorA fgc s.latch
      | true, true, _, _ => mux
      | true, false, false, _ => c.hooks.fgColorB fgc s.latch
      | true, false, true, true => c.hooks.starColor
      | true, false, true, false => c.hooks.gradient s.v s.h s.latch

/-- Rule R17: "No rule of the pipeline reads any of the four" result latches: whatever they hold, `OSC`, `LINE`, `FETCH` and
`PIX` do the same to everything else. -/
def Obligations.PipelineIgnoresResultLatches : Prop :=
  ∀ (s : State) (oscq sprq : BitVec 32) (plbq hdq : BitVec 8) (code v : BitVec 8),
    let m := fun s : State => { s with oscq := oscq, sprq := sprq, plbq := plbq, hdq := hdq }
    (∃ t, exec (.osc code) s = .next t ∧ exec (.osc code) (m s) = .next { m t with oscq := t.oscq }) ∧
    (∃ t, exec (.line v) s = .next t ∧ exec (.line v) (m s) = .next (m t)) ∧
    (∃ t, exec .fetch s = .next t ∧ exec .fetch (m s) = .next { m t with sprq := t.sprq, plbq := t.plbq }) ∧
    (s.busy = true →
      ∃ t, exec .pix s = .next t ∧ exec .pix (m s) = .next { m t with sprq := t.sprq, plbq := t.plbq })

/-- Rule R12: `BUSY` is 1 from a `LINE` until the 256th `PIX` after it, and `H` counts those `PIX`. -/
def Obligations.BusyForTwoHundredFiftySixPixels : Prop :=
  ∀ (s : State) (v : BitVec 8) (n : Nat), n ≤ 256 → ∃ t u : State,
    exec (.line v) s = .next t ∧ execTimes .pix n t = .next u ∧
    u.v = v ∧ u.h.toNat = n % 256 ∧ (u.busy = true ↔ n < 256)

/-- Rules R68, R111, R121: a whole scanline. Every entry of the row holds the colour that the rules give for its board pixel,
from the state in which that pixel was produced; no later pixel of the line touches it. -/
def Obligations.ScanWritesTheWholeRow : Prop :=
  ∀ (s : State) (v : BitVec 8), ∃ t w : State, exec (.line v) s = .next t ∧ execTimes .pix 256 t = .next w ∧
    ∀ h k, h < 256 → k < Config.cfg.hscale → ∃ u f : State,
      execTimes .pix h t = .next u ∧ u.v = v ∧ u.h.toNat = h ∧
      execTimes .fetch (k + 1) (pixelStart Config.cfg u) = .next f ∧
      fbEntry Config.cfg w (h * Config.cfg.hscale + k) = ruleColour Config.cfg u f.sprq f.plbq k

/-- Rules R23, R124: the row of a scanline depends on the slot RAM, the enable tables, the starfield plane, the latches and
the inputs (the row shown and the potentiometers' next samples, which `scans` and `draws` pick: logs 5 and 6) and on nothing
else: not on the collision flags, an earlier row, an earlier working set or a result latch. -/
def Obligations.RowDependsOnInputsOnly : Prop :=
  ∀ (s s' : State) (v : BitVec 8), s.slot = s'.slot → s.hen = s'.hen → s.star = s'.star → s.latch = s'.latch →
    s.scans = s'.scans → s.draws = s'.draws →
    ∃ t t' w w' : State, exec (.line v) s = .next t ∧ exec (.line v) s' = .next t' ∧
      execTimes .pix 256 t = .next w ∧ execTimes .pix 256 t' = .next w' ∧
      ∀ x, x < 256 * Config.cfg.hscale → fbEntry Config.cfg w x = fbEntry Config.cfg w' x

/-! ### Rules of the whole machine -/

/-- Rule R125: every operation completes, for every operand value and every prior state, subject only to the preconditions of
70_reset_and_hazards.md (rules R145, R147); whatever the state, nothing faults. (`HWR` during a scanline completes too:
`HwrWritesOneByte`, log 9.) -/
def Obligations.EveryOperationCompletes : Prop :=
  ∀ (i : Instr) (s : State), (Duty s i → ∃ t : State, exec i s = .next t) ∧ ∀ f : Fault, exec i s ≠ .fault f

/-- Rules R12, R69 (a): only `LINE`, `PIX` and `RST` write the scan position. Of the model's own fields an operation leaves the
other pending operations alone, only `LINE` moves to the next foreground row, only `LINE` and `OSC` sample the potentiometers
(logs 1, 5, 6). -/
def Obligations.OnlyLinePixRstMoveTheScan : Prop :=
  ∀ (i : Instr) (s t : State), exec i s = .next t →
    t.pending = s.pending ∧
    ((∀ v, i ≠ .line v) →
      t.scans = s.scans ∧ ((∀ code, i ≠ .osc code) → t.draws = s.draws) ∧
      (i ≠ .pix → i ≠ .rst → t.v = s.v ∧ t.h = s.h ∧ t.busy = s.busy))

/-- Rule R19: a collision flag once set is cleared by `RST` and `CCLR` only. -/
def Obligations.CollisionFlagsAccumulate : Prop :=
  ∀ (i : Instr) (s t : State), exec i s = .next t → i ≠ .rst → i ≠ .cclr → s.coll &&& t.coll = s.coll

/-- Rule R15: `ROADLEFT` once set is cleared by `LINE` and `RST` only, and only `PIX` sets it. -/
def Obligations.RoadFlagIsSticky : Prop :=
  ∀ (i : Instr) (s t : State), exec i s = .next t →
    (s.roadLeft = true → (∀ v, i ≠ .line v) → i ≠ .rst → t.roadLeft = true) ∧
    (s.roadLeft = false → i ≠ .pix → t.roadLeft = false)

/-- Rules R25, R51 (b), R131: no operation of the scan driver changes a byte of `HEN` or `STAR`, a latch, or bytes 0 to 5 of a
slot; only `LINE` of them changes bytes 6 and 7, only `PIX` the row. -/
def Obligations.ScanDriverWritesOnlyOffsets : Prop :=
  ∀ (i : Instr) (s t : State), mayIssue .scanDriver i = true → exec i s = .next t →
    t.hen = s.hen ∧ t.star = s.star ∧ t.latch = s.latch ∧
    (∀ a, a % 8 < 6 → slotByte Config.cfg t a = slotByte Config.cfg s a) ∧
    ((∀ v, i ≠ .line v) → t.slot = s.slot) ∧ (i ≠ .pix → t.fb = s.fb)

/-- Rules R25, R131: an operation of the host other than `RST` leaves the scan position, the working set, the row and the
results of the pipeline alone. -/
def Obligations.HostLeavesThePipelineAlone : Prop :=
  ∀ (i : Instr) (s t : State), mayIssue .host i = true → i ≠ .rst → exec i s = .next t →
    t.v = s.v ∧ t.h = s.h ∧ t.busy = s.busy ∧ t.ve = s.ve ∧ t.lst = s.lst ∧ t.roadLeft = s.roadLeft ∧
    t.levels = s.levels ∧ t.fb = s.fb ∧ t.oscq = s.oscq ∧ t.sprq = s.sprq ∧ t.plbq = s.plbq

/-- Rules R68, R143, R144: `FRAME v0, v1` is the lines `v0` to `v1`, in strictly increasing order, so each once, each a `LINE`
and the 256 `PIX` of its pixels. -/
def Obligations.FrameScansEachLineOnce : Prop :=
  ∀ v0 v1 : BitVec 8, v0 ≤ v1 →
    let lines := (List.range (v1.toNat - v0.toNat + 1)).map fun k => BitVec.ofNat 8 (v0.toNat + k)
    (Pseudo.frame v0 v1).expand = lines.flatMap (fun v => .line v :: List.replicate 256 .pix) ∧
    linesOf (Pseudo.frame v0 v1).expand = lines ∧
    ascendingLines lines = true ∧
    ∀ v : BitVec 8, v ∈ lines ↔ v0 ≤ v ∧ v ≤ v1

/-! ### Reset and invariants -/

/-- The table of rule R24 in the state after reset. The values the table calls unspecified are the free values of logs 4 and 7,
the model's choice; the empty list of operations and the zero counts are its own too (logs 1, 5, 6). -/
def Obligations.ResetState : Prop :=
  let s := State.reset
  s.coll = 0#8 ∧ s.v = 0#8 ∧ s.h = 0#8 ∧ s.busy = false ∧ s.ve = 0#16 ∧ s.lst = 0#8 ∧ s.roadLeft = false ∧
  (∀ l : Fin 8, s.level l = { lat := 0#32, endFlag := false, foff := 0#16, frac := 0#32, step := 0#32 }) ∧
  s.oscq = 0#32 ∧ s.sprq = 0#32 ∧ s.plbq = 0#8 ∧ s.hdq = 0#8 ∧
  (∀ a, slotByte Config.cfg s a = Config.cfg.powerOn.slot a) ∧ (∀ a, henByte Config.cfg s a = Config.cfg.powerOn.hen a) ∧
  (∀ a, starByte Config.cfg s a = Config.cfg.powerOn.star a) ∧ s.latch = Config.cfg.powerOn.latch ∧
  (∀ x, fbEntry Config.cfg s x = Config.cfg.powerOn.fb x) ∧
  s.pending = [] ∧ s.scans = 0 ∧ s.draws = 0

/-- Every invariant below holds of the state after reset. -/
def Obligations.ResetMeetsTheInvariants : Prop :=
  MemoryForm Config.cfg State.reset ∧ LevelForm Config.cfg State.reset ∧ LiveHasSlot State.reset ∧
  ScanForm State.reset ∧ VariantForm Config.cfg State.reset

/-- Every step keeps every memory canonical and inside its size, and the row's entries below `NCOLORS` (rules R40 to R48, R21). -/
def Obligations.StepKeepsMemoryForm : Prop :=
  ∀ s t : State, MemoryForm Config.cfg s → step s = .next t → MemoryForm Config.cfg t

/-- Every step keeps every level's position below 1.0 and its latched word in its lane (rules R16, R106). -/
def Obligations.StepKeepsLevelForm : Prop :=
  ∀ s t : State, LevelForm Config.cfg s → step s = .next t → LevelForm Config.cfg t

/-- Every step keeps it that a live level has an active slot (rule R84, last paragraph; R113). -/
def Obligations.StepKeepsLiveHasSlot : Prop :=
  ∀ s t : State, LiveHasSlot s → step s = .next t → LiveHasSlot t

/-- Every step keeps `H` at 0 while no scanline is in progress (rule R12). -/
def Obligations.StepKeepsScanForm : Prop :=
  ∀ s t : State, ScanForm s → step s = .next t → ScanForm t

/-- Every step keeps the registers a variant does not use at 0 (rules R15, R17, R19, R103, R104). -/
def Obligations.StepKeepsVariantForm : Prop :=
  ∀ s t : State, VariantForm Config.cfg s → step s = .next t → VariantForm Config.cfg t
end

