-- ==== Sys2Proof/Laws/Config.lean ====
section
/-!
SUPPORT. What is known of the machine's descriptor: it is well-formed, with one evaluation for each device pixel.
-/

namespace Sys2Proof

/-- The machine's descriptor is well-formed (rule R6). -/
theorem Config.cfg_wf : Config.cfg.WF := Config.board.wf

/-- `SUBPIX = HSCALE` (rule R5, D12). -/
theorem Config.cfg_subpix : Config.cfg.subpix = Config.cfg.hscale := Config.board.subpix_eq

end Sys2Proof
end

