-- ==== Sys2Proof/Laws/Encoding.lean ====
section
/-!
SUPPORT. The four fields of a packed command word (30_encoding.md rule R61).
-/

namespace Sys2Proof

theorem opField_packWord (op sel : BitVec 4) (addr : Half) (arg : Byte) : opField (packWord op sel addr arg) = op := by
  refine BitVec.eq_of_getLsbD_eq fun i hi => ?_
  have h1 : ¬ 28 + i < 8 := by omega
  have h2 : ¬ 28 + i - 8 < 16 := by omega
  have h3 : ¬ 28 + i - 8 - 16 < 4 := by omega
  have h4 : 28 + i - 8 - 16 - 4 = i := by omega
  simp only [opField, packWord, BitVec.getLsbD_extractLsb', BitVec.getLsbD_append, h1, h2, h3, h4, hi, if_false,
    decide_true, Bool.true_and]

theorem selField_packWord (op sel : BitVec 4) (addr : Half) (arg : Byte) : selField (packWord op sel addr arg) = sel := by
  refine BitVec.eq_of_getLsbD_eq fun i hi => ?_
  have h1 : ¬ 24 + i < 8 := by omega
  have h2 : ¬ 24 + i - 8 < 16 := by omega
  have h3 : 24 + i - 8 - 16 = i := by omega
  simp only [selField, packWord, BitVec.getLsbD_extractLsb', BitVec.getLsbD_append, h1, h2, h3, hi, if_false, if_true,
    decide_true, Bool.true_and]

theorem addrField_packWord (op sel : BitVec 4) (addr : Half) (arg : Byte) :
    addrField (packWord op sel addr arg) = addr := by
  refine BitVec.eq_of_getLsbD_eq fun i hi => ?_
  have h1 : ¬ 8 + i < 8 := by omega
  have h2 : 8 + i - 8 = i := by omega
  simp only [addrField, packWord, BitVec.getLsbD_extractLsb', BitVec.getLsbD_append, h1, h2, hi, if_false, if_true,
    decide_true, Bool.true_and]

theorem argField_packWord (op sel : BitVec 4) (addr : Half) (arg : Byte) : argField (packWord op sel addr arg) = arg := by
  refine BitVec.eq_of_getLsbD_eq fun i hi => ?_
  simp only [argField, packWord, BitVec.getLsbD_extractLsb', BitVec.getLsbD_append, hi, if_true, decide_true,
    Bool.true_and, Nat.zero_add]

/-- Bit `i` of a packed word, by its field. -/
theorem packWord_bit (op sel : BitVec 4) (addr : Half) (arg : Byte) (i : Nat) :
    (packWord op sel addr arg).getLsbD i =
      if i < 8 then arg.getLsbD i
      else if i - 8 < 16 then addr.getLsbD (i - 8)
      else if i - 8 - 16 < 4 then sel.getLsbD (i - 8 - 16)
      else op.getLsbD (i - 8 - 16 - 4) := by
  simp only [packWord, BitVec.getLsbD_append]

/-- A word is its four fields. -/
theorem packWord_fields (w : Word) : packWord (opField w) (selField w) (addrField w) (argField w) = w := by
  refine BitVec.eq_of_getLsbD_eq fun i hi => ?_
  have hi32 : i < 32 := hi
  rw [packWord_bit]
  simp only [opField, selField, addrField, argField, BitVec.getLsbD_extractLsb']
  split_ifs with h1 h2 h3
  · simp [h1]
  · have e : 8 + (i - 8) = i := by omega
    simp [h2, e]
  · have e : 24 + (i - 8 - 16) = i := by omega
    simp [h3, e]
  · have h : i - 8 - 16 - 4 < 4 := by omega
    have e : 28 + (i - 8 - 16 - 4) = i := by omega
    simp [h, e]

end Sys2Proof
end

