-- ==== Sys2Proof/Laws/Memory.lean ====
section
/-!
SUPPORT. The laws of a memory as a list of cells: a read after a write, and that every operation keeps the canonical form
and the bound on addresses.
-/

namespace Sys2Proof.Machine

variable {α : Type}

theorem memRead_erase_same (d : Nat → α) (m : List (Nat × α)) (a : Nat) : memRead d (memErase m a) a = d a := by
  induction m with
  | nil => rfl
  | cons cell m ih =>
    obtain ⟨k, y⟩ := cell
    by_cases h : a = k <;> simp [memErase, memRead, h] at ih ⊢
    · rw [← h]; exact h ▸ ih
    · exact ih

theorem memRead_erase_other (d : Nat → α) (m : List (Nat × α)) {a b : Nat} (hab : b ≠ a) :
    memRead d (memErase m a) b = memRead d m b := by
  induction m with
  | nil => rfl
  | cons cell m ih =>
    obtain ⟨k, y⟩ := cell
    by_cases h : a = k
    · subst h; simp [memErase, memRead, hab, ih]
    · simp [memErase, memRead, h, ih]

theorem memRead_insert_other (d : Nat → α) (m : List (Nat × α)) {a b : Nat} (x : α) (hab : b ≠ a) :
    memRead d (memInsert m a x) b = memRead d m b := by
  induction m with
  | nil => simp [memInsert, memRead, hab]
  | cons cell m ih =>
    obtain ⟨k, y⟩ := cell
    by_cases h : a < k <;> simp [memInsert, memRead, h, hab, ih]

theorem memRead_insert_erase (d : Nat → α) (m : List (Nat × α)) (a : Nat) (x : α) :
    memRead d (memInsert (memErase m a) a x) a = x := by
  induction m with
  | nil => simp [memErase, memInsert, memRead]
  | cons cell m ih =>
    obtain ⟨k, y⟩ := cell
    by_cases h : a = k
    · simp [memErase, h, h ▸ ih]
    · by_cases hlt : a < k <;> simp [memErase, memInsert, memRead, h, hlt, ih]

/-- A read of the address just written gives the value written, whatever the memory's form. -/
@[simp] theorem memRead_write_same [DecidableEq α] (d : Nat → α) (m : List (Nat × α)) (a : Nat) (x : α) :
    memRead d (memWrite d m a x) a = x := by
  unfold memWrite
  split
  · next h => rw [memRead_erase_same, h]
  · exact memRead_insert_erase d m a x

/-- A write leaves every other address alone. -/
theorem memRead_write_other [DecidableEq α] (d : Nat → α) (m : List (Nat × α)) {a b : Nat} (x : α) (hab : b ≠ a) :
    memRead d (memWrite d m a x) b = memRead d m b := by
  unfold memWrite
  split
  · exact memRead_erase_other d m hab
  · rw [memRead_insert_other d _ x hab, memRead_erase_other d m hab]

/-- What any address reads as after a write. -/
theorem memRead_write [DecidableEq α] (d : Nat → α) (m : List (Nat × α)) (a b : Nat) (x : α) :
    memRead d (memWrite d m a x) b = if b = a then x else memRead d m b := by
  split
  · next h => rw [h, memRead_write_same]
  · next h => exact memRead_write_other d m x h

/-! ### The canonical form -/

theorem memRising_mono [DecidableEq α] (d : Nat → α) {lo lo' : Nat} (h : lo' ≤ lo) :
    ∀ {m : List (Nat × α)}, memRising d lo m = true → memRising d lo' m = true
  | [], _ => rfl
  | (k, x) :: m, hm => by
    simp only [memRising, Bool.and_eq_true, decide_eq_true_eq] at hm ⊢
    exact ⟨⟨h.trans hm.1.1, hm.1.2⟩, hm.2⟩

theorem memRising_erase [DecidableEq α] (d : Nat → α) (a : Nat) :
    ∀ {lo : Nat} {m : List (Nat × α)}, memRising d lo m = true → memRising d lo (memErase m a) = true
  | _, [], _ => rfl
  | lo, (k, x) :: m, hm => by
    simp only [memRising, Bool.and_eq_true, decide_eq_true_eq] at hm
    have ih := memRising_erase d a hm.2
    by_cases h : a = k
    · simp only [memErase, h, if_true]
      exact memRising_mono d (by omega) (h ▸ ih)
    · simp [memErase, h, memRising, hm.1.1, hm.1.2, ih]

/-- After an erasure no cell has that address. -/
theorem memErase_absent (m : List (Nat × α)) (a : Nat) : ∀ cell ∈ memErase m a, cell.1 ≠ a := by
  induction m with
  | nil => simp [memErase]
  | cons cell m ih =>
    obtain ⟨k, y⟩ := cell
    by_cases h : a = k
    · simp only [memErase, h, if_true]
      exact h ▸ ih
    · intro c hc
      simp only [memErase, h, if_false, List.mem_cons] at hc
      rcases hc with rfl | hc
      · exact fun he => h he.symm
      · exact ih c hc

theorem memRising_insert [DecidableEq α] (d : Nat → α) {a : Nat} {x : α} (hx : x ≠ d a) :
    ∀ {lo : Nat} {m : List (Nat × α)}, lo ≤ a → (∀ cell ∈ m, cell.1 ≠ a) → memRising d lo m = true →
      memRising d lo (memInsert m a x) = true
  | lo, [], hlo, _, _ => by simp [memInsert, memRising, hlo, hx]
  | lo, (k, y) :: m, hlo, hne, hm => by
    simp only [memRising, Bool.and_eq_true, decide_eq_true_eq] at hm
    have hk : k ≠ a := hne (k, y) (by simp)
    by_cases h : a < k
    · simp [memInsert, h, memRising, hlo, hx, hm.1.2, hm.2]
    · have ih := memRising_insert d hx (lo := k + 1) (m := m) (by omega) (fun c hc => hne c (by simp [hc])) hm.2
      simp [memInsert, h, memRising, hm.1.1, hm.1.2, ih]

theorem memBelow_erase {n : Nat} {m : List (Nat × α)} (a : Nat) (h : memBelow n m = true) :
    memBelow n (memErase m a) = true := by
  induction m with
  | nil => rfl
  | cons cell m ih =>
    obtain ⟨k, y⟩ := cell
    simp only [memBelow, List.all_cons, Bool.and_eq_true] at h ih ⊢
    by_cases hk : a = k
    · simp only [memErase, hk, if_true]
      exact hk ▸ ih h.2
    · simpa [memErase, hk] using ⟨by simpa using h.1, by simpa using ih h.2⟩

theorem memBelow_insert {n a : Nat} {m : List (Nat × α)} (x : α) (ha : a < n) (h : memBelow n m = true) :
    memBelow n (memInsert m a x) = true := by
  induction m with
  | nil => simp [memInsert, memBelow, ha]
  | cons cell m ih =>
    obtain ⟨k, y⟩ := cell
    simp only [memBelow, List.all_cons, Bool.and_eq_true] at h ih ⊢
    by_cases hk : a < k
    · simpa [memInsert, hk, ha] using ⟨by simpa using h.1, by simpa using h.2⟩
    · simpa [memInsert, hk] using ⟨by simpa using h.1, by simpa using ih h.2⟩

/-- A write inside the memory keeps the canonical form. -/
theorem memWf_write [DecidableEq α] (d : Nat → α) {n a : Nat} {m : List (Nat × α)} (x : α) (ha : a < n)
    (h : memWf d n m = true) : memWf d n (memWrite d m a x) = true := by
  simp only [memWf, Bool.and_eq_true] at h ⊢
  have hr := memRising_erase d a h.1
  have hb := memBelow_erase a h.2
  unfold memWrite
  split
  · exact ⟨hr, hb⟩
  · next hx => exact ⟨memRising_insert d hx (Nat.zero_le a) (memErase_absent m a) hr, memBelow_insert x ha hb⟩

/-- The empty memory is canonical. -/
@[simp] theorem memWf_nil [DecidableEq α] (d : Nat → α) (n : Nat) : memWf d n [] = true := rfl

theorem memRead_below [DecidableEq α] (d : Nat → α) {a lo : Nat} :
    ∀ {m : List (Nat × α)}, memRising d lo m = true → a < lo → memRead d m a = d a
  | [], _, _ => rfl
  | (k, x) :: m, hm, ha => by
    simp only [memRising, Bool.and_eq_true, decide_eq_true_eq] at hm
    have : a ≠ k := by omega
    simp only [memRead, this, if_false]
    exact memRead_below d hm.2 (by omega)

/-- Canonical memories that read alike everywhere are the same list. -/
theorem memRising_ext [DecidableEq α] (d : Nat → α) :
    ∀ {lo lo' : Nat} {m m' : List (Nat × α)}, memRising d lo m = true → memRising d lo' m' = true →
      (∀ a, memRead d m a = memRead d m' a) → m = m'
  | _, _, [], [], _, _, _ => rfl
  | _, _, [], (k, x) :: m', _, hm', hr => by
    have := hr k
    simp only [memRising, Bool.and_eq_true, decide_eq_true_eq, Bool.not_eq_true', decide_eq_false_iff_not] at hm'
    simp [memRead] at this
    exact absurd this.symm hm'.1.2
  | _, _, (k, x) :: m, [], hm, _, hr => by
    have := hr k
    simp only [memRising, Bool.and_eq_true, decide_eq_true_eq, Bool.not_eq_true', decide_eq_false_iff_not] at hm
    simp [memRead] at this
    exact absurd this hm.1.2
  | _, _, (k, x) :: m, (k', x') :: m', hm, hm', hr => by
    simp only [memRising, Bool.and_eq_true, decide_eq_true_eq, Bool.not_eq_true', decide_eq_false_iff_not] at hm hm'
    have hkk : k = k' := by
      rcases lt_trichotomy k k' with h | h | h
      · have := hr k
        rw [show memRead d ((k', x') :: m') k = d k from by
          simp only [memRead, show k ≠ k' by omega, if_false]; exact memRead_below d hm'.2 (by omega)] at this
        simp [memRead] at this
        exact absurd this hm.1.2
      · exact h
      · have := hr k'
        rw [show memRead d ((k, x) :: m) k' = d k' from by
          simp only [memRead, show k' ≠ k by omega, if_false]; exact memRead_below d hm.2 (by omega)] at this
        simp [memRead] at this
        exact absurd this.symm hm'.1.2
    subst hkk
    have hx : x = x' := by have := hr k; simpa [memRead] using this
    subst hx
    have ht : m = m' := memRising_ext d hm.2 hm'.2 fun a => by
      have := hr a
      by_cases h : a = k
      · subst h
        rw [memRead_below d hm.2 (by omega), memRead_below d hm'.2 (by omega)]
      · simpa [memRead, h] using this
    rw [ht]

/-- A property of all values of a memory is kept by a write of a value that has it. -/
theorem memWrite_all [DecidableEq α] (d : Nat → α) {P : α → Prop} {m : List (Nat × α)} {a : Nat} {x : α} (hx : P x)
    (h : ∀ b, P (memRead d m b)) (b : Nat) : P (memRead d (memWrite d m a x) b) := by
  rw [memRead_write]
  split
  · exact hx
  · exact h b

end Sys2Proof.Machine
end

