-- ==== Sys2Proof/Laws/State.lean ====
section
/-!
SUPPORT. One lemma per field and per update of the state, so that no later proof unfolds a record update, and the laws of
the level registers.
-/

namespace Sys2Proof.Machine

/-! ### `setSlotByte` -/

@[simp] theorem setSlotByte_slot (c : Cfg) (s : State) (a : Nat) (b : Byte) : (setSlotByte c s a b).slot = memWrite c.powerOn.slot s.slot a b := rfl
@[simp] theorem setSlotByte_hen (c : Cfg) (s : State) (a : Nat) (b : Byte) : (setSlotByte c s a b).hen = s.hen := rfl
@[simp] theorem setSlotByte_star (c : Cfg) (s : State) (a : Nat) (b : Byte) : (setSlotByte c s a b).star = s.star := rfl
@[simp] theorem setSlotByte_latch (c : Cfg) (s : State) (a : Nat) (b : Byte) : (setSlotByte c s a b).latch = s.latch := rfl
@[simp] theorem setSlotByte_coll (c : Cfg) (s : State) (a : Nat) (b : Byte) : (setSlotByte c s a b).coll = s.coll := rfl
@[simp] theorem setSlotByte_v (c : Cfg) (s : State) (a : Nat) (b : Byte) : (setSlotByte c s a b).v = s.v := rfl
@[simp] theorem setSlotByte_h (c : Cfg) (s : State) (a : Nat) (b : Byte) : (setSlotByte c s a b).h = s.h := rfl
@[simp] theorem setSlotByte_busy (c : Cfg) (s : State) (a : Nat) (b : Byte) : (setSlotByte c s a b).busy = s.busy := rfl
@[simp] theorem setSlotByte_ve (c : Cfg) (s : State) (a : Nat) (b : Byte) : (setSlotByte c s a b).ve = s.ve := rfl
@[simp] theorem setSlotByte_lst (c : Cfg) (s : State) (a : Nat) (b : Byte) : (setSlotByte c s a b).lst = s.lst := rfl
@[simp] theorem setSlotByte_roadLeft (c : Cfg) (s : State) (a : Nat) (b : Byte) : (setSlotByte c s a b).roadLeft = s.roadLeft := rfl
@[simp] theorem setSlotByte_levels (c : Cfg) (s : State) (a : Nat) (b : Byte) : (setSlotByte c s a b).levels = s.levels := rfl
@[simp] theorem setSlotByte_oscq (c : Cfg) (s : State) (a : Nat) (b : Byte) : (setSlotByte c s a b).oscq = s.oscq := rfl
@[simp] theorem setSlotByte_sprq (c : Cfg) (s : State) (a : Nat) (b : Byte) : (setSlotByte c s a b).sprq = s.sprq := rfl
@[simp] theorem setSlotByte_plbq (c : Cfg) (s : State) (a : Nat) (b : Byte) : (setSlotByte c s a b).plbq = s.plbq := rfl
@[simp] theorem setSlotByte_hdq (c : Cfg) (s : State) (a : Nat) (b : Byte) : (setSlotByte c s a b).hdq = s.hdq := rfl
@[simp] theorem setSlotByte_fb (c : Cfg) (s : State) (a : Nat) (b : Byte) : (setSlotByte c s a b).fb = s.fb := rfl
@[simp] theorem setSlotByte_pending (c : Cfg) (s : State) (a : Nat) (b : Byte) : (setSlotByte c s a b).pending = s.pending := rfl
@[simp] theorem setSlotByte_scans (c : Cfg) (s : State) (a : Nat) (b : Byte) : (setSlotByte c s a b).scans = s.scans := rfl
@[simp] theorem setSlotByte_draws (c : Cfg) (s : State) (a : Nat) (b : Byte) : (setSlotByte c s a b).draws = s.draws := rfl

/-! ### `setHenByte` -/

@[simp] theorem setHenByte_slot (c : Cfg) (s : State) (a : Nat) (b : Byte) : (setHenByte c s a b).slot = s.slot := rfl
@[simp] theorem setHenByte_hen (c : Cfg) (s : State) (a : Nat) (b : Byte) : (setHenByte c s a b).hen = memWrite c.powerOn.hen s.hen a b := rfl
@[simp] theorem setHenByte_star (c : Cfg) (s : State) (a : Nat) (b : Byte) : (setHenByte c s a b).star = s.star := rfl
@[simp] theorem setHenByte_latch (c : Cfg) (s : State) (a : Nat) (b : Byte) : (setHenByte c s a b).latch = s.latch := rfl
@[simp] theorem setHenByte_coll (c : Cfg) (s : State) (a : Nat) (b : Byte) : (setHenByte c s a b).coll = s.coll := rfl
@[simp] theorem setHenByte_v (c : Cfg) (s : State) (a : Nat) (b : Byte) : (setHenByte c s a b).v = s.v := rfl
@[simp] theorem setHenByte_h (c : Cfg) (s : State) (a : Nat) (b : Byte) : (setHenByte c s a b).h = s.h := rfl
@[simp] theorem setHenByte_busy (c : Cfg) (s : State) (a : Nat) (b : Byte) : (setHenByte c s a b).busy = s.busy := rfl
@[simp] theorem setHenByte_ve (c : Cfg) (s : State) (a : Nat) (b : Byte) : (setHenByte c s a b).ve = s.ve := rfl
@[simp] theorem setHenByte_lst (c : Cfg) (s : State) (a : Nat) (b : Byte) : (setHenByte c s a b).lst = s.lst := rfl
@[simp] theorem setHenByte_roadLeft (c : Cfg) (s : State) (a : Nat) (b : Byte) : (setHenByte c s a b).roadLeft = s.roadLeft := rfl
@[simp] theorem setHenByte_levels (c : Cfg) (s : State) (a : Nat) (b : Byte) : (setHenByte c s a b).levels = s.levels := rfl
@[simp] theorem setHenByte_oscq (c : Cfg) (s : State) (a : Nat) (b : Byte) : (setHenByte c s a b).oscq = s.oscq := rfl
@[simp] theorem setHenByte_sprq (c : Cfg) (s : State) (a : Nat) (b : Byte) : (setHenByte c s a b).sprq = s.sprq := rfl
@[simp] theorem setHenByte_plbq (c : Cfg) (s : State) (a : Nat) (b : Byte) : (setHenByte c s a b).plbq = s.plbq := rfl
@[simp] theorem setHenByte_hdq (c : Cfg) (s : State) (a : Nat) (b : Byte) : (setHenByte c s a b).hdq = s.hdq := rfl
@[simp] theorem setHenByte_fb (c : Cfg) (s : State) (a : Nat) (b : Byte) : (setHenByte c s a b).fb = s.fb := rfl
@[simp] theorem setHenByte_pending (c : Cfg) (s : State) (a : Nat) (b : Byte) : (setHenByte c s a b).pending = s.pending := rfl
@[simp] theorem setHenByte_scans (c : Cfg) (s : State) (a : Nat) (b : Byte) : (setHenByte c s a b).scans = s.scans := rfl
@[simp] theorem setHenByte_draws (c : Cfg) (s : State) (a : Nat) (b : Byte) : (setHenByte c s a b).draws = s.draws := rfl

/-! ### `setStarByte` -/

@[simp] theorem setStarByte_slot (c : Cfg) (s : State) (a : Nat) (b : Byte) : (setStarByte c s a b).slot = s.slot := rfl
@[simp] theorem setStarByte_hen (c : Cfg) (s : State) (a : Nat) (b : Byte) : (setStarByte c s a b).hen = s.hen := rfl
@[simp] theorem setStarByte_star (c : Cfg) (s : State) (a : Nat) (b : Byte) : (setStarByte c s a b).star = memWrite c.powerOn.star s.star a b := rfl
@[simp] theorem setStarByte_latch (c : Cfg) (s : State) (a : Nat) (b : Byte) : (setStarByte c s a b).latch = s.latch := rfl
@[simp] theorem setStarByte_coll (c : Cfg) (s : State) (a : Nat) (b : Byte) : (setStarByte c s a b).coll = s.coll := rfl
@[simp] theorem setStarByte_v (c : Cfg) (s : State) (a : Nat) (b : Byte) : (setStarByte c s a b).v = s.v := rfl
@[simp] theorem setStarByte_h (c : Cfg) (s : State) (a : Nat) (b : Byte) : (setStarByte c s a b).h = s.h := rfl
@[simp] theorem setStarByte_busy (c : Cfg) (s : State) (a : Nat) (b : Byte) : (setStarByte c s a b).busy = s.busy := rfl
@[simp] theorem setStarByte_ve (c : Cfg) (s : State) (a : Nat) (b : Byte) : (setStarByte c s a b).ve = s.ve := rfl
@[simp] theorem setStarByte_lst (c : Cfg) (s : State) (a : Nat) (b : Byte) : (setStarByte c s a b).lst = s.lst := rfl
@[simp] theorem setStarByte_roadLeft (c : Cfg) (s : State) (a : Nat) (b : Byte) : (setStarByte c s a b).roadLeft = s.roadLeft := rfl
@[simp] theorem setStarByte_levels (c : Cfg) (s : State) (a : Nat) (b : Byte) : (setStarByte c s a b).levels = s.levels := rfl
@[simp] theorem setStarByte_oscq (c : Cfg) (s : State) (a : Nat) (b : Byte) : (setStarByte c s a b).oscq = s.oscq := rfl
@[simp] theorem setStarByte_sprq (c : Cfg) (s : State) (a : Nat) (b : Byte) : (setStarByte c s a b).sprq = s.sprq := rfl
@[simp] theorem setStarByte_plbq (c : Cfg) (s : State) (a : Nat) (b : Byte) : (setStarByte c s a b).plbq = s.plbq := rfl
@[simp] theorem setStarByte_hdq (c : Cfg) (s : State) (a : Nat) (b : Byte) : (setStarByte c s a b).hdq = s.hdq := rfl
@[simp] theorem setStarByte_fb (c : Cfg) (s : State) (a : Nat) (b : Byte) : (setStarByte c s a b).fb = s.fb := rfl
@[simp] theorem setStarByte_pending (c : Cfg) (s : State) (a : Nat) (b : Byte) : (setStarByte c s a b).pending = s.pending := rfl
@[simp] theorem setStarByte_scans (c : Cfg) (s : State) (a : Nat) (b : Byte) : (setStarByte c s a b).scans = s.scans := rfl
@[simp] theorem setStarByte_draws (c : Cfg) (s : State) (a : Nat) (b : Byte) : (setStarByte c s a b).draws = s.draws := rfl

/-! ### `setFbEntry` -/

@[simp] theorem setFbEntry_slot (c : Cfg) (s : State) (x idx : Nat) : (setFbEntry c s x idx).slot = s.slot := rfl
@[simp] theorem setFbEntry_hen (c : Cfg) (s : State) (x idx : Nat) : (setFbEntry c s x idx).hen = s.hen := rfl
@[simp] theorem setFbEntry_star (c : Cfg) (s : State) (x idx : Nat) : (setFbEntry c s x idx).star = s.star := rfl
@[simp] theorem setFbEntry_latch (c : Cfg) (s : State) (x idx : Nat) : (setFbEntry c s x idx).latch = s.latch := rfl
@[simp] theorem setFbEntry_coll (c : Cfg) (s : State) (x idx : Nat) : (setFbEntry c s x idx).coll = s.coll := rfl
@[simp] theorem setFbEntry_v (c : Cfg) (s : State) (x idx : Nat) : (setFbEntry c s x idx).v = s.v := rfl
@[simp] theorem setFbEntry_h (c : Cfg) (s : State) (x idx : Nat) : (setFbEntry c s x idx).h = s.h := rfl
@[simp] theorem setFbEntry_busy (c : Cfg) (s : State) (x idx : Nat) : (setFbEntry c s x idx).busy = s.busy := rfl
@[simp] theorem setFbEntry_ve (c : Cfg) (s : State) (x idx : Nat) : (setFbEntry c s x idx).ve = s.ve := rfl
@[simp] theorem setFbEntry_lst (c : Cfg) (s : State) (x idx : Nat) : (setFbEntry c s x idx).lst = s.lst := rfl
@[simp] theorem setFbEntry_roadLeft (c : Cfg) (s : State) (x idx : Nat) : (setFbEntry c s x idx).roadLeft = s.roadLeft := rfl
@[simp] theorem setFbEntry_levels (c : Cfg) (s : State) (x idx : Nat) : (setFbEntry c s x idx).levels = s.levels := rfl
@[simp] theorem setFbEntry_oscq (c : Cfg) (s : State) (x idx : Nat) : (setFbEntry c s x idx).oscq = s.oscq := rfl
@[simp] theorem setFbEntry_sprq (c : Cfg) (s : State) (x idx : Nat) : (setFbEntry c s x idx).sprq = s.sprq := rfl
@[simp] theorem setFbEntry_plbq (c : Cfg) (s : State) (x idx : Nat) : (setFbEntry c s x idx).plbq = s.plbq := rfl
@[simp] theorem setFbEntry_hdq (c : Cfg) (s : State) (x idx : Nat) : (setFbEntry c s x idx).hdq = s.hdq := rfl
@[simp] theorem setFbEntry_fb (c : Cfg) (s : State) (x idx : Nat) : (setFbEntry c s x idx).fb = memWrite c.powerOn.fb s.fb x idx := rfl
@[simp] theorem setFbEntry_pending (c : Cfg) (s : State) (x idx : Nat) : (setFbEntry c s x idx).pending = s.pending := rfl
@[simp] theorem setFbEntry_scans (c : Cfg) (s : State) (x idx : Nat) : (setFbEntry c s x idx).scans = s.scans := rfl
@[simp] theorem setFbEntry_draws (c : Cfg) (s : State) (x idx : Nat) : (setFbEntry c s x idx).draws = s.draws := rfl

/-! ### `setLevel` -/

@[simp] theorem setLevel_slot (s : State) (l : Fin 8) (lv : Level) : (s.setLevel l lv).slot = s.slot := rfl
@[simp] theorem setLevel_hen (s : State) (l : Fin 8) (lv : Level) : (s.setLevel l lv).hen = s.hen := rfl
@[simp] theorem setLevel_star (s : State) (l : Fin 8) (lv : Level) : (s.setLevel l lv).star = s.star := rfl
@[simp] theorem setLevel_latch (s : State) (l : Fin 8) (lv : Level) : (s.setLevel l lv).latch = s.latch := rfl
@[simp] theorem setLevel_coll (s : State) (l : Fin 8) (lv : Level) : (s.setLevel l lv).coll = s.coll := rfl
@[simp] theorem setLevel_v (s : State) (l : Fin 8) (lv : Level) : (s.setLevel l lv).v = s.v := rfl
@[simp] theorem setLevel_h (s : State) (l : Fin 8) (lv : Level) : (s.setLevel l lv).h = s.h := rfl
@[simp] theorem setLevel_busy (s : State) (l : Fin 8) (lv : Level) : (s.setLevel l lv).busy = s.busy := rfl
@[simp] theorem setLevel_ve (s : State) (l : Fin 8) (lv : Level) : (s.setLevel l lv).ve = s.ve := rfl
@[simp] theorem setLevel_lst (s : State) (l : Fin 8) (lv : Level) : (s.setLevel l lv).lst = s.lst := rfl
@[simp] theorem setLevel_roadLeft (s : State) (l : Fin 8) (lv : Level) : (s.setLevel l lv).roadLeft = s.roadLeft := rfl
@[simp] theorem setLevel_levels (s : State) (l : Fin 8) (lv : Level) : (s.setLevel l lv).levels = s.levels.set l lv := rfl
@[simp] theorem setLevel_oscq (s : State) (l : Fin 8) (lv : Level) : (s.setLevel l lv).oscq = s.oscq := rfl
@[simp] theorem setLevel_sprq (s : State) (l : Fin 8) (lv : Level) : (s.setLevel l lv).sprq = s.sprq := rfl
@[simp] theorem setLevel_plbq (s : State) (l : Fin 8) (lv : Level) : (s.setLevel l lv).plbq = s.plbq := rfl
@[simp] theorem setLevel_hdq (s : State) (l : Fin 8) (lv : Level) : (s.setLevel l lv).hdq = s.hdq := rfl
@[simp] theorem setLevel_fb (s : State) (l : Fin 8) (lv : Level) : (s.setLevel l lv).fb = s.fb := rfl
@[simp] theorem setLevel_pending (s : State) (l : Fin 8) (lv : Level) : (s.setLevel l lv).pending = s.pending := rfl
@[simp] theorem setLevel_scans (s : State) (l : Fin 8) (lv : Level) : (s.setLevel l lv).scans = s.scans := rfl
@[simp] theorem setLevel_draws (s : State) (l : Fin 8) (lv : Level) : (s.setLevel l lv).draws = s.draws := rfl

/-! ### `startScan` -/

@[simp] theorem startScan_slot (w : Byte) (s : State) : (startScan w s).slot = s.slot := rfl
@[simp] theorem startScan_hen (w : Byte) (s : State) : (startScan w s).hen = s.hen := rfl
@[simp] theorem startScan_star (w : Byte) (s : State) : (startScan w s).star = s.star := rfl
@[simp] theorem startScan_latch (w : Byte) (s : State) : (startScan w s).latch = s.latch := rfl
@[simp] theorem startScan_coll (w : Byte) (s : State) : (startScan w s).coll = s.coll := rfl
@[simp] theorem startScan_v (w : Byte) (s : State) : (startScan w s).v = w := rfl
@[simp] theorem startScan_h (w : Byte) (s : State) : (startScan w s).h = 0#8 := rfl
@[simp] theorem startScan_busy (w : Byte) (s : State) : (startScan w s).busy = true := rfl
@[simp] theorem startScan_ve (w : Byte) (s : State) : (startScan w s).ve = s.ve := rfl
@[simp] theorem startScan_lst (w : Byte) (s : State) : (startScan w s).lst = s.lst := rfl
@[simp] theorem startScan_roadLeft (w : Byte) (s : State) : (startScan w s).roadLeft = s.roadLeft := rfl
@[simp] theorem startScan_levels (w : Byte) (s : State) : (startScan w s).levels = s.levels := rfl
@[simp] theorem startScan_oscq (w : Byte) (s : State) : (startScan w s).oscq = s.oscq := rfl
@[simp] theorem startScan_sprq (w : Byte) (s : State) : (startScan w s).sprq = s.sprq := rfl
@[simp] theorem startScan_plbq (w : Byte) (s : State) : (startScan w s).plbq = s.plbq := rfl
@[simp] theorem startScan_hdq (w : Byte) (s : State) : (startScan w s).hdq = s.hdq := rfl
@[simp] theorem startScan_fb (w : Byte) (s : State) : (startScan w s).fb = s.fb := rfl
@[simp] theorem startScan_pending (w : Byte) (s : State) : (startScan w s).pending = s.pending := rfl
@[simp] theorem startScan_scans (w : Byte) (s : State) : (startScan w s).scans = s.scans + 1 := rfl
@[simp] theorem startScan_draws (w : Byte) (s : State) : (startScan w s).draws = s.draws := rfl

/-! ### `advanceScan` -/

@[simp] theorem advanceScan_slot (s : State) : (advanceScan s).slot = s.slot := rfl
@[simp] theorem advanceScan_hen (s : State) : (advanceScan s).hen = s.hen := rfl
@[simp] theorem advanceScan_star (s : State) : (advanceScan s).star = s.star := rfl
@[simp] theorem advanceScan_latch (s : State) : (advanceScan s).latch = s.latch := rfl
@[simp] theorem advanceScan_coll (s : State) : (advanceScan s).coll = s.coll := rfl
@[simp] theorem advanceScan_v (s : State) : (advanceScan s).v = s.v := rfl
@[simp] theorem advanceScan_h (s : State) : (advanceScan s).h = s.h + 1#8 := rfl
@[simp] theorem advanceScan_busy (s : State) : (advanceScan s).busy = busyAfter s.busy (s.h + 1#8) := rfl
@[simp] theorem advanceScan_ve (s : State) : (advanceScan s).ve = s.ve := rfl
@[simp] theorem advanceScan_lst (s : State) : (advanceScan s).lst = s.lst := rfl
@[simp] theorem advanceScan_roadLeft (s : State) : (advanceScan s).roadLeft = s.roadLeft := rfl
@[simp] theorem advanceScan_levels (s : State) : (advanceScan s).levels = s.levels := rfl
@[simp] theorem advanceScan_oscq (s : State) : (advanceScan s).oscq = s.oscq := rfl
@[simp] theorem advanceScan_sprq (s : State) : (advanceScan s).sprq = s.sprq := rfl
@[simp] theorem advanceScan_plbq (s : State) : (advanceScan s).plbq = s.plbq := rfl
@[simp] theorem advanceScan_hdq (s : State) : (advanceScan s).hdq = s.hdq := rfl
@[simp] theorem advanceScan_fb (s : State) : (advanceScan s).fb = s.fb := rfl
@[simp] theorem advanceScan_pending (s : State) : (advanceScan s).pending = s.pending := rfl
@[simp] theorem advanceScan_scans (s : State) : (advanceScan s).scans = s.scans := rfl
@[simp] theorem advanceScan_draws (s : State) : (advanceScan s).draws = s.draws := rfl

/-! ### `freshWorkingSet` -/

@[simp] theorem freshWorkingSet_slot (s : State) : (freshWorkingSet s).slot = s.slot := rfl
@[simp] theorem freshWorkingSet_hen (s : State) : (freshWorkingSet s).hen = s.hen := rfl
@[simp] theorem freshWorkingSet_star (s : State) : (freshWorkingSet s).star = s.star := rfl
@[simp] theorem freshWorkingSet_latch (s : State) : (freshWorkingSet s).latch = s.latch := rfl
@[simp] theorem freshWorkingSet_coll (s : State) : (freshWorkingSet s).coll = s.coll := rfl
@[simp] theorem freshWorkingSet_v (s : State) : (freshWorkingSet s).v = s.v := rfl
@[simp] theorem freshWorkingSet_h (s : State) : (freshWorkingSet s).h = s.h := rfl
@[simp] theorem freshWorkingSet_busy (s : State) : (freshWorkingSet s).busy = s.busy := rfl
@[simp] theorem freshWorkingSet_ve (s : State) : (freshWorkingSet s).ve = 0#16 := rfl
@[simp] theorem freshWorkingSet_lst (s : State) : (freshWorkingSet s).lst = 0#8 := rfl
@[simp] theorem freshWorkingSet_roadLeft (s : State) : (freshWorkingSet s).roadLeft = false := rfl
@[simp] theorem freshWorkingSet_levels (s : State) : (freshWorkingSet s).levels = Vector.replicate 8 Level.fresh := rfl
@[simp] theorem freshWorkingSet_oscq (s : State) : (freshWorkingSet s).oscq = s.oscq := rfl
@[simp] theorem freshWorkingSet_sprq (s : State) : (freshWorkingSet s).sprq = s.sprq := rfl
@[simp] theorem freshWorkingSet_plbq (s : State) : (freshWorkingSet s).plbq = s.plbq := rfl
@[simp] theorem freshWorkingSet_hdq (s : State) : (freshWorkingSet s).hdq = s.hdq := rfl
@[simp] theorem freshWorkingSet_fb (s : State) : (freshWorkingSet s).fb = s.fb := rfl
@[simp] theorem freshWorkingSet_pending (s : State) : (freshWorkingSet s).pending = s.pending := rfl
@[simp] theorem freshWorkingSet_scans (s : State) : (freshWorkingSet s).scans = s.scans := rfl
@[simp] theorem freshWorkingSet_draws (s : State) : (freshWorkingSet s).draws = s.draws := rfl

/-! ### Level registers -/

@[simp] theorem level_setLevel_same (s : State) (l : Fin 8) (lv : Level) : (s.setLevel l lv).level l = lv := by
  simp [State.level]

theorem level_setLevel_other (s : State) {l k : Fin 8} (lv : Level) (h : k ≠ l) :
    (s.setLevel l lv).level k = s.level k := by
  have : l.val ≠ k.val := fun e => h (Fin.ext e.symm)
  simp [State.level, this]

theorem level_setLevel (s : State) (l k : Fin 8) (lv : Level) :
    (s.setLevel l lv).level k = if k = l then lv else s.level k := by
  split
  · next h => rw [h, level_setLevel_same]
  · next h => exact level_setLevel_other s lv h

@[simp] theorem level_freshWorkingSet (s : State) (l : Fin 8) : (freshWorkingSet s).level l = Level.fresh := by
  simp [State.level]

/-- The level registers are read from `levels` alone. -/
theorem level_congr {s t : State} (h : s.levels = t.levels) (l : Fin 8) : s.level l = t.level l := by
  simp [State.level, h]

/-- States with equal level registers have equal `levels`. -/
theorem levels_ext {s t : State} (h : ∀ l, s.level l = t.level l) : s.levels = t.levels := by
  ext i hi
  exact h ⟨i, hi⟩

/-! ### Byte reads after updates -/

@[simp] theorem slotByte_setSlotByte (c : Cfg) (s : State) (a b : Nat) (x : Byte) :
    slotByte c (setSlotByte c s a x) b = if b = a then x else slotByte c s b :=
  memRead_write _ _ _ _ _

@[simp] theorem henByte_setHenByte (c : Cfg) (s : State) (a b : Nat) (x : Byte) :
    henByte c (setHenByte c s a x) b = if b = a then x else henByte c s b :=
  memRead_write _ _ _ _ _

@[simp] theorem starByte_setStarByte (c : Cfg) (s : State) (a b : Nat) (x : Byte) :
    starByte c (setStarByte c s a x) b = if b = a then x else starByte c s b :=
  memRead_write _ _ _ _ _

@[simp] theorem fbEntry_setFbEntry (c : Cfg) (s : State) (a b x : Nat) :
    fbEntry c (setFbEntry c s a x) b = if b = a then x else fbEntry c s b :=
  memRead_write _ _ _ _ _

theorem slotByte_congr {c : Cfg} {s t : State} (h : s.slot = t.slot) (a : Nat) : slotByte c s a = slotByte c t a := by
  simp [slotByte, h]

theorem henByte_congr {c : Cfg} {s t : State} (h : s.hen = t.hen) (a : Nat) : henByte c s a = henByte c t a := by
  simp [henByte, h]

theorem starByte_congr {c : Cfg} {s t : State} (h : s.star = t.star) (a : Nat) : starByte c s a = starByte c t a := by
  simp [starByte, h]

theorem fbEntry_congr {c : Cfg} {s t : State} (h : s.fb = t.fb) (x : Nat) : fbEntry c s x = fbEntry c t x := by
  simp [fbEntry, h]

end Sys2Proof.Machine
end

