-- ==== Sys2Proof/Laws/Fetch.lean ====
section
/-!
SUPPORT. The laws of the bit fetcher: the catch-up loop in closed form (42_bit_fetcher.md rules R100 to R106), what one call
does to each level (rules R97, R99, R110), and what it leaves alone.
-/

namespace Sys2Proof.Machine

/-! ### The threshold -/

theorem fracOne_pos (c : Cfg) : 0 < (fracOne c).toNat := by
  unfold fracOne
  cases c.variant <;> decide

/-- No position holds more nibbles than the loop's bound (rule R106). -/
theorem frac_div_lt_bound (c : Cfg) (x : Word) : x.toNat / (fracOne c).toNat < catchUpBound := by
  have hx := x.isLt
  have : 0x800000 ≤ (fracOne c).toNat := by
    unfold fracOne
    cases c.variant <;> decide
  rw [Nat.div_lt_iff_lt_mul (fracOne_pos c)]
  unfold catchUpBound
  omega

/-! ### The catch-up loop -/

/-- A level after its first `n` nibbles. -/
def levelAfter (c : Cfg) (l : Fin 8) (lv : Level) : Nat → Level
  | 0 => lv
  | n + 1 =>
    { lat := expand (nibbleAt c l lv n) <<< l.val
      endFlag := (classify c (nibbleAt c l lv n)).boundary
      foff := offsetAfter lv.foff (n + 1)
      frac := lv.frac - BitVec.ofNat 32 (n + 1) * fracOne c
      step := lv.step }

theorem offsetAfter_step (o : Half) (n : Nat) : offsetAfter (stepOffset o) n = offsetAfter o (n + 1) := by
  induction n with
  | zero => rfl
  | succ n ih => simp only [offsetAfter] at ih ⊢; rw [ih]

theorem nibbleAt_step (c : Cfg) (l : Fin 8) (lv : Level) (n : Nat) :
    nibbleAt c l (fetchNibble c l lv).1 n = nibbleAt c l lv (n + 1) := by
  simp [nibbleAt, fetchNibble, offsetAfter_step]

theorem endsWithin_step (c : Cfg) (l : Fin 8) (lv : Level) (n : Nat) :
    endsWithin c l lv (n + 1) = ((fetchNibble c l lv).2 || endsWithin c l (fetchNibble c l lv).1 n) := by
  induction n with
  | zero => simp [endsWithin, fetchNibble, nibbleAt, offsetAfter]
  | succ n ih =>
    rw [show endsWithin c l lv (n + 1 + 1) = (endsWithin c l lv (n + 1) || (classify c (nibbleAt c l lv (n + 1))).ends)
      from rfl, ih]
    simp [endsWithin, nibbleAt_step, Bool.or_assoc]

theorem levelAfter_step (c : Cfg) (l : Fin 8) (lv : Level) (n : Nat) :
    levelAfter c l (fetchNibble c l lv).1 n = levelAfter c l lv (n + 1) := by
  cases n with
  | zero => simp [levelAfter, fetchNibble, nibbleAt, offsetAfter]
  | succ n =>
    simp only [levelAfter, nibbleAt_step]
    refine congrArg₂ (fun f x => Level.mk _ _ f x _) ?_ ?_
    · simp [fetchNibble, offsetAfter_step]
    · have h : BitVec.ofNat 32 (n + 1 + 1) = BitVec.ofNat 32 (n + 1) + 1#32 := by simp [BitVec.ofNat_add]
      simp only [fetchNibble, h, BitVec.add_mul]
      bv_omega

/-- The loop in closed form: it fetches as many nibbles as the position holds thresholds. -/
theorem catchUp_eq (c : Cfg) (l : Fin 8) :
    ∀ (fuel : Nat) (lv : Level) (e : Bool), lv.frac.toNat / (fracOne c).toNat < fuel →
      catchUp c l fuel lv e =
        (levelAfter c l lv (lv.frac.toNat / (fracOne c).toNat),
          e || endsWithin c l lv (lv.frac.toNat / (fracOne c).toNat))
  | 0, _, _, h => absurd h (Nat.not_lt_zero _)
  | fuel + 1, lv, e, h => by
    have hpos := fracOne_pos c
    unfold catchUp
    split
    · next hle =>
      have hle' : (fracOne c).toNat ≤ lv.frac.toNat := BitVec.le_def.mp hle
      have hsub : (fetchNibble c l lv).1.frac.toNat = lv.frac.toNat - (fracOne c).toNat := by
        simp only [fetchNibble]
        exact BitVec.toNat_sub_of_le hle
      have hdiv : lv.frac.toNat / (fracOne c).toNat = (fetchNibble c l lv).1.frac.toNat / (fracOne c).toNat + 1 := by
        rw [hsub]
        exact Nat.div_eq_sub_div hpos hle'
      rw [catchUp_eq c l fuel _ _ (by omega), hdiv, levelAfter_step, endsWithin_step, Bool.or_assoc]
    · next hlt =>
      have : lv.frac.toNat / (fracOne c).toNat = 0 :=
        Nat.div_eq_of_lt (Nat.lt_of_not_le fun hle => hlt (BitVec.le_def.mpr hle))
      simp [this, levelAfter, endsWithin]

/-- A level with its step added, as the loop finds it (rule R100). -/
def stepped (lv : Level) : Level := { lv with frac := lv.frac + lv.step }

/-- A live level after one call (rules R100 to R106). -/
theorem advanceLevel_eq (c : Cfg) (l : Fin 8) (lv : Level) :
    advanceLevel c l lv = (levelAfter c l (stepped lv) (nibblesDue c lv), endsWithin c l lv (nibblesDue c lv)) := by
  have h : ∀ n, endsWithin c l (stepped lv) n = endsWithin c l lv n := fun n => by
    induction n with
    | zero => rfl
    | succ n ih => simp only [endsWithin, ih]; rfl
  unfold advanceLevel
  rw [catchUp_eq c l _ _ _ (frac_div_lt_bound c _)]
  simp only [Bool.false_or, nibblesDue]
  exact congrArg _ (h _)

@[simp] theorem levelAfter_step_field (c : Cfg) (l : Fin 8) (lv : Level) (n : Nat) :
    (levelAfter c l lv n).step = lv.step := by
  cases n <;> rfl

@[simp] theorem levelAfter_foff (c : Cfg) (l : Fin 8) (lv : Level) (n : Nat) :
    (levelAfter c l lv n).foff = offsetAfter lv.foff n := by
  cases n <;> rfl

theorem levelAfter_frac (c : Cfg) (l : Fin 8) (lv : Level) (n : Nat) :
    (levelAfter c l lv n).frac = lv.frac - BitVec.ofNat 32 n * fracOne c := by
  cases n <;> simp [levelAfter]

/-- After the loop the position is the remainder by 1.0 (rule R106). -/
theorem advanceLevel_frac (c : Cfg) (l : Fin 8) (lv : Level) :
    (advanceLevel c l lv).1.frac.toNat = (lv.frac + lv.step).toNat % (fracOne c).toNat := by
  have hx := (lv.frac + lv.step).isLt
  rw [advanceLevel_eq, levelAfter_frac]
  simp only [stepped, nibblesDue]
  generalize lv.frac + lv.step = x at *
  have hmul : x.toNat / (fracOne c).toNat * (fracOne c).toNat ≤ x.toNat := Nat.div_mul_le_self _ _
  have hq : x.toNat / (fracOne c).toNat < 2 ^ 32 := lt_of_le_of_lt (Nat.div_le_self _ _) hx
  have hprod : (BitVec.ofNat 32 (x.toNat / (fracOne c).toNat) * fracOne c).toNat =
      x.toNat / (fracOne c).toNat * (fracOne c).toNat := by
    rw [BitVec.toNat_mul, BitVec.toNat_ofNat, Nat.mod_eq_of_lt hq, Nat.mod_eq_of_lt (lt_of_le_of_lt hmul hx)]
  rw [BitVec.toNat_sub_of_le (BitVec.le_def.mpr (by rw [hprod]; exact hmul)), hprod]
  have := Nat.div_add_mod x.toNat (fracOne c).toNat
  rw [Nat.mul_comm] at this
  omega

/-- After the loop the position is below 1.0 (rule R106). -/
theorem advanceLevel_frac_lt (c : Cfg) (l : Fin 8) (lv : Level) : (advanceLevel c l lv).1.frac < fracOne c := by
  rw [BitVec.lt_def, advanceLevel_frac]
  exact Nat.mod_lt _ (fracOne_pos c)

@[simp] theorem advanceLevel_step (c : Cfg) (l : Fin 8) (lv : Level) : (advanceLevel c l lv).1.step = lv.step := by
  rw [advanceLevel_eq]
  simp [stepped]

/-! ### One call -/

/-- A live level's registers advance, the others stay. -/
theorem fetchLive_level (c : Cfg) (acc : FetchAcc) (l k : Fin 8) :
    (fetchLive c acc l).state.level k =
      if k = l then (advanceLevel c l (acc.state.level l)).1 else acc.state.level k :=
  level_setLevel acc.state l k _

/-- What one call answers about level `k`, for a list of levels walked once each. -/
theorem fetchFold_level (c : Cfg) (live : BitVec 8) :
    ∀ (ls : List (Fin 8)) (_ : ls.Nodup) (acc : FetchAcc) (k : Fin 8),
      (ls.foldl (fetchLevel c live) acc).state.level k =
        if k ∈ ls ∧ live.getLsbD k.val = true then (advanceLevel c k (acc.state.level k)).1 else acc.state.level k
  | [], _, _, _ => by simp
  | l :: ls, hnd, acc, k => by
    obtain ⟨hl, hnd⟩ := List.nodup_cons.mp hnd
    rw [List.foldl_cons, fetchFold_level c live ls hnd]
    have hstep : (fetchLevel c live acc l).state.level k =
        if k = l ∧ live.getLsbD k.val = true then (advanceLevel c k (acc.state.level k)).1 else acc.state.level k := by
      unfold fetchLevel
      by_cases hlive : live.getLsbD l.val = true
      · rw [if_pos hlive]
        rw [fetchLive_level]
        by_cases hk : k = l
        · subst hk; rw [if_pos rfl, if_pos ⟨rfl, hlive⟩]
        · simp [hk]
      · rw [if_neg hlive]
        rw [if_neg fun h : k = l ∧ _ => hlive (h.1 ▸ h.2)]
    rw [hstep]
    by_cases hk : k = l
    · subst hk; simp [hl]
    · simp [hk]

theorem clearIfEnded_bit (lst : BitVec 8) (l k : Fin 8) (e : Bool) :
    (clearIfEnded lst l e).getLsbD k.val = (lst.getLsbD k.val && !(decide (k = l) && e)) := by
  cases e
  · simp [clearIfEnded]
  · revert lst
    revert l k
    decide +kernel

/-- What one call answers about the live bit of level `k`. -/
theorem fetchFold_lst (c : Cfg) (live : BitVec 8) :
    ∀ (ls : List (Fin 8)) (_ : ls.Nodup) (acc : FetchAcc) (k : Fin 8),
      (ls.foldl (fetchLevel c live) acc).state.lst.getLsbD k.val =
        (acc.state.lst.getLsbD k.val &&
          !(decide (k ∈ ls) && live.getLsbD k.val && (advanceLevel c k (acc.state.level k)).2))
  | [], _, _, _ => by simp
  | l :: ls, hnd, acc, k => by
    obtain ⟨hl, hnd⟩ := List.nodup_cons.mp hnd
    rw [List.foldl_cons, fetchFold_lst c live ls hnd]
    by_cases hlive : live.getLsbD l.val = true
    · rw [show fetchLevel c live acc l = fetchLive c acc l from if_pos hlive]
      have hlst : (fetchLive c acc l).state.lst.getLsbD k.val =
          (acc.state.lst.getLsbD k.val && !(decide (k = l) && (advanceLevel c l (acc.state.level l)).2)) :=
        clearIfEnded_bit _ _ _ _
      rw [hlst]
      by_cases hk : k = l
      · subst hk; rw [hlive]; simp [hl]
      · rw [fetchLive_level, if_neg hk]
        simp [hk]
    · rw [show fetchLevel c live acc l = acc from if_neg hlive]
      by_cases hk : k = l
      · subst hk; rw [Bool.eq_false_iff.mpr hlive]; simp
      · simp [hk]

/-- Only the levels and the live bits move while a call walks the levels. -/
theorem fetchFold_frame (c : Cfg) (live : BitVec 8) (ls : List (Fin 8)) (acc : FetchAcc) :
    (ls.foldl (fetchLevel c live) acc).state =
      { acc.state with
        lst := (ls.foldl (fetchLevel c live) acc).state.lst
        levels := (ls.foldl (fetchLevel c live) acc).state.levels } := by
  induction ls generalizing acc with
  | nil => rfl
  | cons l ls ih =>
    rw [List.foldl_cons, ih]
    unfold fetchLevel
    split <;> rfl

theorem fetchFold_spr (c : Cfg) (live : BitVec 8) :
    ∀ (ls : List (Fin 8)) (_ : ls.Nodup) (acc : FetchAcc),
      (ls.foldl (fetchLevel c live) acc).spr =
        ls.foldl (fun w l => if live.getLsbD l.val then w ||| (acc.state.level l).lat else w) acc.spr
  | [], _, _ => rfl
  | l :: ls, hnd, acc => by
    obtain ⟨hl, hnd⟩ := List.nodup_cons.mp hnd
    rw [List.foldl_cons, List.foldl_cons, fetchFold_spr c live ls hnd]
    have hsame : ∀ k ∈ ls, (fetchLevel c live acc l).state.level k = acc.state.level k := fun k hk => by
      have := fetchFold_level c live [l] (by simp) acc k
      simpa [show k ≠ l from fun e => hl (e ▸ hk)] using this
    have hspr : (fetchLevel c live acc l).spr = if live.getLsbD l.val then acc.spr ||| (acc.state.level l).lat else acc.spr := by
      unfold fetchLevel
      split <;> rfl
    rw [hspr]
    exact List.foldl_ext _ _ _ fun w k hk => by rw [hsame k hk]

theorem fetchFold_plb (c : Cfg) (live : BitVec 8) :
    ∀ (ls : List (Fin 8)) (_ : ls.Nodup) (acc : FetchAcc),
      (ls.foldl (fetchLevel c live) acc).plb =
        ls.foldl (fun w l => if live.getLsbD l.val then w ||| boundaryBit (acc.state.level l).endFlag l else w) acc.plb
  | [], _, _ => rfl
  | l :: ls, hnd, acc => by
    obtain ⟨hl, hnd⟩ := List.nodup_cons.mp hnd
    rw [List.foldl_cons, List.foldl_cons, fetchFold_plb c live ls hnd]
    have hsame : ∀ k ∈ ls, (fetchLevel c live acc l).state.level k = acc.state.level k := fun k hk => by
      have := fetchFold_level c live [l] (by simp) acc k
      simpa [show k ≠ l from fun e => hl (e ▸ hk)] using this
    have hplb : (fetchLevel c live acc l).plb =
        if live.getLsbD l.val then acc.plb ||| boundaryBit (acc.state.level l).endFlag l else acc.plb := by
      unfold fetchLevel
      split <;> rfl
    rw [hplb]
    exact List.foldl_ext _ _ _ fun w k hk => by rw [hsame k hk]

theorem allLevels_nodup : allLevels.Nodup := by decide

theorem mem_allLevels : ∀ l : Fin 8, l ∈ allLevels := by decide

/-- A fetch moves a level iff it is in the live set (rules R97, R110). -/
theorem fetchAll_level (c : Cfg) (s : State) (k : Fin 8) :
    (fetchAll c s).level k =
      if (liveSet c s).getLsbD k.val = true then (advanceLevel c k (s.level k)).1 else s.level k := by
  have := fetchFold_level c (liveSet c s) allLevels allLevels_nodup { state := s, spr := 0#32, plb := 0#8 } k
  simp only [mem_allLevels k, true_and] at this
  exact this

/-- A fetch clears exactly the live bits of the levels whose stream it found ended (rule R103). -/
theorem fetchAll_lst (c : Cfg) (s : State) (k : Fin 8) :
    (fetchAll c s).lst.getLsbD k.val =
      (s.lst.getLsbD k.val && !((liveSet c s).getLsbD k.val && (advanceLevel c k (s.level k)).2)) := by
  have := fetchFold_lst c (liveSet c s) allLevels allLevels_nodup { state := s, spr := 0#32, plb := 0#8 } k
  simp only [mem_allLevels k, decide_true, Bool.true_and] at this
  exact this

@[simp] theorem fetchAll_sprq (c : Cfg) (s : State) : (fetchAll c s).sprq = compositeWord c s :=
  fetchFold_spr c (liveSet c s) allLevels allLevels_nodup { state := s, spr := 0#32, plb := 0#8 }

@[simp] theorem fetchAll_plbq (c : Cfg) (s : State) :
    (fetchAll c s).plbq = boundaryWord c (compositeBoundary c s) :=
  congrArg (boundaryWord c) (fetchFold_plb c (liveSet c s) allLevels allLevels_nodup { state := s, spr := 0#32, plb := 0#8 })

/-- Everything a fetch can change. -/
theorem fetchAll_frame (c : Cfg) (s : State) :
    fetchAll c s =
      { s with
        lst := (fetchAll c s).lst
        levels := (fetchAll c s).levels
        sprq := (fetchAll c s).sprq
        plbq := (fetchAll c s).plbq } := by
  have := fetchFold_frame c (liveSet c s) allLevels { state := s, spr := 0#32, plb := 0#8 }
  exact congrArg (fun t : State =>
    { t with sprq := (fetchLevels c s).spr, plbq := boundaryWord c (fetchLevels c s).plb }) this

/-! ### The words bit by bit -/

theorem orFold_bit {n : Nat} (live : Fin 8 → Bool) (f : Fin 8 → BitVec n) (j : Nat) :
    ∀ (ls : List (Fin 8)) (w : BitVec n),
      (ls.foldl (fun w l => if live l then w ||| f l else w) w).getLsbD j =
        (w.getLsbD j || ls.any fun l => live l && (f l).getLsbD j)
  | [], w => by simp
  | l :: ls, w => by
    rw [List.foldl_cons, orFold_bit live f j ls]
    cases h : live l <;> simp [h, Bool.or_assoc]

/-- A bit of the composite word comes from a live level that holds it (rule R99). -/
theorem compositeWord_bit (c : Cfg) (s : State) (j : Nat) :
    (compositeWord c s).getLsbD j = true ↔
      ∃ l : Fin 8, (liveSet c s).getLsbD l.val = true ∧ (s.level l).lat.getLsbD j = true := by
  unfold compositeWord
  rw [orFold_bit (fun l => (liveSet c s).getLsbD l.val)]
  simp only [BitVec.getLsbD_zero, Bool.false_or, List.any_eq_true, mem_allLevels, true_and, Bool.and_eq_true]

theorem boundaryBit_bit (e : Bool) (l k : Fin 8) : (boundaryBit e l).getLsbD k.val = (decide (k = l) && e) := by
  revert e l k
  decide +kernel

/-- A bit of the boundary word is the flag of its level, if the level is live (rule R104). -/
theorem compositeBoundary_bit (c : Cfg) (s : State) (k : Fin 8) :
    (compositeBoundary c s).getLsbD k.val = ((liveSet c s).getLsbD k.val && (s.level k).endFlag) := by
  unfold compositeBoundary
  rw [orFold_bit (fun l => (liveSet c s).getLsbD l.val), Bool.eq_iff_iff]
  simp only [BitVec.getLsbD_zero, Bool.false_or, List.any_eq_true, mem_allLevels, true_and, Bool.and_eq_true,
    boundaryBit_bit, decide_eq_true_eq]
  exact ⟨fun ⟨l, h, e, hf⟩ => e ▸ ⟨h, hf⟩, fun ⟨h, hf⟩ => ⟨k, h, rfl, hf⟩⟩

/-- The live set level by level (rule R97). -/
theorem liveSet_bit (c : Cfg) (s : State) (l : Fin 8) :
    (liveSet c s).getLsbD l.val =
      (s.lst.getLsbD l.val && (decide (l.val < 3) || !(hasRoadGate c && !s.roadLeft))) := by
  have mask : ∀ l : Fin 8, (0x07#8).getLsbD l.val = decide (l.val < 3) := by decide
  unfold liveSet
  split
  · next h => rw [BitVec.getLsbD_and, mask, h]; simp
  · next h => rw [Bool.eq_false_iff.mpr h]; simp

/-- Whether one of the first nibbles ends the stream (rule R103). -/
theorem endsWithin_iff (c : Cfg) (l : Fin 8) (lv : Level) (n : Nat) :
    endsWithin c l lv n = true ↔ ∃ j, j < n ∧ (classify c (nibbleAt c l lv j)).ends = true := by
  induction n with
  | zero => simp [endsWithin]
  | succ n ih =>
    rw [endsWithin, Bool.or_eq_true, ih]
    constructor
    · rintro (⟨j, hj, h⟩ | h)
      · exact ⟨j, by omega, h⟩
      · exact ⟨n, by omega, h⟩
    · rintro ⟨j, hj, h⟩
      rcases Nat.lt_succ_iff_lt_or_eq.mp hj with hj | rfl
      · exact .inl ⟨j, hj, h⟩
      · exact .inr h

end Sys2Proof.Machine
end

