-- ==== Sys2Proof/Laws/Line.lean ====
section
/-!
SUPPORT. The laws of the line arbiter: what the scan of the slots leaves in the slot RAM, the enable vector and the levels
(41_line_arbiter.md rules R84 to R94). Slots do not disturb one another: each is judged by the bytes it had when `LINE` began.
-/

namespace Sys2Proof.Machine

/-! ### The adders as numbers -/

theorem sum1_toNat (c : Cfg) (v sL : Byte) : (sum1 c v sL).toNat = v.toNat + (lowAddend c sL).toNat := by
  have := v.isLt
  have := (lowAddend c sL).isLt
  simp only [sum1, BitVec.toNat_add, BitVec.toNat_setWidth]
  omega

theorem sum2_toNat (c : Cfg) (v sL sH : Byte) :
    (sum2 c v sL sH).toNat =
      v.toNat + (lowAddend c sL).toNat + v.toNat * 256 + (highAddend sH).toNat * 256 := by
  have := v.isLt
  have := (lowAddend c sL).isLt
  have := (highAddend sH).isLt
  simp only [sum2, BitVec.toNat_add, BitVec.toNat_setWidth, BitVec.toNat_shiftLeft, sum1_toNat, Nat.shiftLeft_eq]
  omega

/-- The carry out of the low adder (rule R86, derived). -/
theorem clo_eq (c : Cfg) (v sL : Byte) : clo c v sL = decide (256 ≤ v.toNat + (lowAddend c sL).toNat) := by
  have := v.isLt
  have := (lowAddend c sL).isLt
  rw [clo, BitVec.getLsbD, sum1_toNat, Nat.testBit_eq_decide_div_mod_eq, decide_eq_decide]
  omega

/-- The carry out of the high adder (rule R86, derived). -/
theorem chi_eq (c : Cfg) (v sL sH : Byte) :
    chi c v sL sH =
      decide (65536 ≤ v.toNat + (lowAddend c sL).toNat + v.toNat * 256 + (highAddend sH).toNat * 256) := by
  have := v.isLt
  have := (lowAddend c sL).isLt
  have := (highAddend sH).isLt
  rw [chi, BitVec.getLsbD, sum2_toNat, Nat.testBit_eq_decide_div_mod_eq, decide_eq_decide]
  omega

/-! ### One slot -/

/-- Slot `i` looks the same in two states: its eight bytes and the scanline number. -/
structure SameSlot (c : Cfg) (s t : State) (i : Fin 16) : Prop where
  v : t.v = s.v
  field : ∀ k, k < 8 → slotField c t i k = slotField c s i k

theorem SameSlot.active {c : Cfg} {s t : State} {i : Fin 16} (h : SameSlot c s t i) :
    activeSlot c t i = activeSlot c s i := by
  simp only [activeSlot, h.v, h.field 0 (by omega), h.field 1 (by omega)]

theorem SameSlot.gate {c : Cfg} {s t : State} {i : Fin 16} (h : SameSlot c s t i) : slotGate c t i = slotGate c s i := by
  simp only [slotGate, h.v, h.field 0 (by omega), h.field 1 (by omega), h.field 3 (by omega)]

theorem SameSlot.newOffset {c : Cfg} {s t : State} {i : Fin 16} (h : SameSlot c s t i) :
    newOffset c t i = newOffset c s i := by
  simp only [Machine.newOffset, h.gate, offsetOf, rowStepOf, h.field 4 (by omega), h.field 5 (by omega),
    h.field 6 (by omega), h.field 7 (by omega)]

/-- The bytes of the slot RAM after the write-back of slot `i`. -/
theorem slotByte_writeBack (c : Cfg) (i : Fin 16) (s : State) (a : Nat) :
    slotByte c (writeBack c i s) a =
      if slotGate c s i = false ∧ a = slotAddr i 7 then highByte (newOffset c s i)
      else if slotGate c s i = false ∧ a = slotAddr i 6 then lowByte (newOffset c s i)
      else slotByte c s a := by
  unfold writeBack
  cases slotGate c s i <;> simp

/-- The write-back changes nothing but the slot RAM. -/
theorem writeBack_frame (c : Cfg) (i : Fin 16) (s : State) :
    writeBack c i s = { s with slot := (writeBack c i s).slot } := by
  unfold writeBack
  split <;> rfl

/-- An active slot changes the slot RAM, `VE`, the levels and the count of step rates, nothing else. -/
theorem activateSlot_frame (c : Cfg) (s : State) (i : Fin 16) :
    activateSlot c s i =
      { s with
        slot := (activateSlot c s i).slot
        ve := setSlotBit s.ve i
        levels := (activateSlot c s i).levels
        draws := s.draws + 1 } := by
  unfold activateSlot initLevel
  rw [writeBack_frame]
  rfl

theorem activateSlot_slotByte (c : Cfg) (s : State) (i : Fin 16) (a : Nat) :
    slotByte c (activateSlot c s i) a =
      if slotGate c s i = false ∧ a = slotAddr i 7 then highByte (newOffset c s i)
      else if slotGate c s i = false ∧ a = slotAddr i 6 then lowByte (newOffset c s i)
      else slotByte c s a :=
  slotByte_writeBack c i { s with ve := setSlotBit s.ve i } a

theorem writeBack_draws (c : Cfg) (i : Fin 16) (s : State) : (writeBack c i s).draws = s.draws := by
  rw [writeBack_frame]

theorem writeBack_levels (c : Cfg) (i : Fin 16) (s : State) : (writeBack c i s).levels = s.levels := by
  rw [writeBack_frame]

theorem activateSlot_level (c : Cfg) (s : State) (i : Fin 16) (l : Fin 8) :
    (activateSlot c s i).level l =
      if l = levelOf i then initialLevel (newOffset c s i) (c.stepRates (slotField c s i 2) (resistances c s.draws))
      else s.level l := by
  unfold activateSlot initLevel nextStepRate
  rw [writeBack_draws]
  refine (level_setLevel _ _ l _).trans ?_
  rw [level_congr (writeBack_levels c i _) l]
  rfl

/-! ### The scan -/

/-- The scan of the first `n` slots. -/
def prepareUpTo (c : Cfg) (s : State) : Nat → State
  | 0 => s
  | n + 1 => if h : n < 16 then prepareSlot c (prepareUpTo c s n) ⟨n, h⟩ else prepareUpTo c s n

theorem prepareLine_eq (c : Cfg) (v : Byte) (s : State) : prepareLine c v s = prepareUpTo c (lineStart v s) 16 := rfl

/-- The last active slot of level `l` below `n`. -/
def lastBelow (c : Cfg) (s : State) (l : Fin 8) : Nat → Option (Fin 16)
  | 0 => none
  | n + 1 =>
    if h : n < 16 then
      (if activeSlot c s ⟨n, h⟩ = true ∧ l = levelOf ⟨n, h⟩ then some ⟨n, h⟩ else lastBelow c s l n)
    else lastBelow c s l n

theorem lastBelow_16 (c : Cfg) (s : State) (l : Fin 8) : lastBelow c s l 16 = winner c s l := by
  fin_cases l <;> simp [lastBelow, winner, upperSlot, lowerSlot, levelOf] <;> rfl

/-- The level registers an active slot leaves (rule R90), as slot `i` of the state at the start of `LINE` gives them. -/
def slotLevel (c : Cfg) (s : State) (i : Fin 16) : Level :=
  initialLevel (newOffset c s i) (c.stepRates (slotField c s i 2) (resistances c (s.draws + activeBelow c s i.val)))

/-- With a well-formed descriptor the step is that of rule R76. -/
theorem slotLevel_step {c : Cfg} (h : c.WF) (s : State) (i : Fin 16) :
    (slotLevel c s i).step =
      stepRate c (slotField c s i 2) (resistances c (s.draws + activeBelow c s i.val)) := h.stepRates_eq _ _

/-- The scan of the first `n` slots in closed form. -/
structure ScanLaw (c : Cfg) (s t : State) (n : Nat) : Prop where
  frame : t = { s with slot := t.slot, ve := t.ve, levels := t.levels, draws := s.draws + activeBelow c s n }
  ve : ∀ i : Fin 16, t.ve.getLsbD i.val = (s.ve.getLsbD i.val || (decide (i.val < n) && activeSlot c s i))
  written : ∀ i : Fin 16, i.val < n → writesBack c s i = true →
    slotByte c t (slotAddr i 6) = lowByte (newOffset c s i) ∧ slotByte c t (slotAddr i 7) = highByte (newOffset c s i)
  kept : ∀ a, (∀ i : Fin 16, i.val < n → writesBack c s i = true → a ≠ slotAddr i 6 ∧ a ≠ slotAddr i 7) →
    slotByte c t a = slotByte c s a
  level : ∀ l, t.level l = (lastBelow c s l n).elim (s.level l) (slotLevel c s)

theorem setSlotBit_bit (ve : BitVec 16) (i k : Fin 16) :
    (setSlotBit ve i).getLsbD k.val = (ve.getLsbD k.val || decide (k = i)) := by
  have h : ∀ i k : Fin 16, (1#16 <<< i.val).getLsbD k.val = decide (k = i) := by decide +kernel
  rw [setSlotBit, BitVec.getLsbD_or, h]

theorem prepareUpTo_law (c : Cfg) (s : State) : ∀ n, n ≤ 16 → ScanLaw c s (prepareUpTo c s n) n
  | 0, _ => by
    refine ⟨?_, fun i => by simp [prepareUpTo], fun i h => absurd h (Nat.not_lt_zero _), fun _ _ => rfl, fun l => rfl⟩
    simp [prepareUpTo, activeBelow]
  | n + 1, hn => by
    have h16 : n < 16 := by omega
    have ih := prepareUpTo_law c s n (by omega)
    have hsame : SameSlot c s (prepareUpTo c s n) ⟨n, h16⟩ := by
      refine ⟨by rw [ih.frame], fun k hk => ih.kept _ fun i hi _ => ?_⟩
      simp only [slotAddr]
      omega
    simp only [prepareUpTo, h16, dite_true, prepareSlot, hsame.active]
    generalize hst : prepareUpTo c s n = t at ih hsame
    by_cases hact : activeSlot c s ⟨n, h16⟩ = true
    · rw [if_pos hact]
      have hlast : ∀ i : Fin 16, i.val < n + 1 ↔ i.val < n ∨ i = ⟨n, h16⟩ := fun i => by
        simp only [Fin.ext_iff]; omega
      have hcount : activeBelow c s (n + 1) = activeBelow c s n + 1 := by simp [activeBelow, h16, hact]
      have hdraws : t.draws = s.draws + activeBelow c s n := by rw [ih.frame]
      refine ⟨?_, fun i => ?_, fun i hi hw => ?_, fun a ha => ?_, fun l => ?_⟩
      · rw [activateSlot_frame, ih.frame, hcount]
        simp [Nat.add_assoc]
      · rw [activateSlot_frame]
        simp only [setSlotBit_bit, ih.ve]
        by_cases hi : i = ⟨n, h16⟩
        · subst hi; simp [hact]
        · have : ¬ i.val = n := fun e => hi (Fin.ext e)
          have : (i.val < n + 1) ↔ i.val < n := by omega
          simp [hi, this]
      · rw [activateSlot_slotByte, activateSlot_slotByte, hsame.gate, hsame.newOffset]
        rcases (hlast i).mp hi with hlt | rfl
        · have := ih.written i hlt hw
          have e1 : slotAddr i 6 ≠ slotAddr ⟨n, h16⟩ 7 := by simp only [slotAddr]; omega
          have e2 : slotAddr i 6 ≠ slotAddr ⟨n, h16⟩ 6 := by simp only [slotAddr]; omega
          have e3 : slotAddr i 7 ≠ slotAddr ⟨n, h16⟩ 7 := by simp only [slotAddr]; omega
          have e4 : slotAddr i 7 ≠ slotAddr ⟨n, h16⟩ 6 := by simp only [slotAddr]; omega
          simp [e1, e2, e3, e4, this]
        · have hg : slotGate c s ⟨n, h16⟩ = false := by
            simp only [writesBack, Bool.and_eq_true, Bool.not_eq_true'] at hw
            exact hw.2
          have e : slotAddr ⟨n, h16⟩ 6 ≠ slotAddr ⟨n, h16⟩ 7 := by simp only [slotAddr]; omega
          simp [hg, e]
      · rw [activateSlot_slotByte, hsame.gate, hsame.newOffset,
          ih.kept a fun i hi => ha i (by omega)]
        by_cases hg : slotGate c s ⟨n, h16⟩ = false
        · have := ha ⟨n, h16⟩ (Nat.lt_succ_self n) (by simp [writesBack, hact, hg])
          simp [this.1, this.2]
        · simp [hg]
      · rw [activateSlot_level, hsame.newOffset, hsame.field 2 (by omega), hdraws]
        by_cases hl : l = levelOf ⟨n, h16⟩
        · simp [hl, lastBelow, h16, hact, slotLevel]
        · simp [hl, lastBelow, h16, ih.level]
    · rw [if_neg hact]
      have hcount : activeBelow c s (n + 1) = activeBelow c s n := by simp [activeBelow, h16, hact]
      have hw : ∀ i : Fin 16, writesBack c s i = true → i.val < n + 1 → i.val < n := fun i hw hi => by
        rcases Nat.lt_succ_iff_lt_or_eq.mp hi with h | h
        · exact h
        · have : i = ⟨n, h16⟩ := Fin.ext h
          subst this
          simp [writesBack, hact] at hw
      refine ⟨hcount ▸ ih.frame, fun i => ?_, fun i hi hb => ih.written i (hw i hb hi) hb,
        fun a ha => ih.kept a fun i hi => ha i (by omega), fun l => ?_⟩
      · rw [ih.ve]
        by_cases hi : i = ⟨n, h16⟩
        · subst hi; simp [hact]
        · have : ¬ i.val = n := fun e => hi (Fin.ext e)
          have : (i.val < n + 1) ↔ i.val < n := by omega
          simp [this]
      · rw [ih.level]
        simp [lastBelow, h16, hact]

/-- Everything `LINE v` does, in terms of the state it starts from. -/
theorem prepareLine_law (c : Cfg) (v : Byte) (s : State) : ScanLaw c (lineStart v s) (prepareLine c v s) 16 :=
  prepareUpTo_law c (lineStart v s) 16 (Nat.le_refl _)

/-- The registers of each level after `LINE` (rules R90, R91). -/
theorem prepareLine_level (c : Cfg) (v : Byte) (s : State) (l : Fin 8) :
    (prepareLine c v s).level l = (winner c (lineStart v s) l).elim Level.fresh (slotLevel c (lineStart v s)) := by
  rw [(prepareLine_law c v s).level, lastBelow_16]
  simp [lineStart]

/-- The two bytes of a 16-bit value, joined again. -/
theorem joinBytes_split (x : Half) : joinBytes (lowByte x) (highByte x) = x := by
  refine BitVec.eq_of_getLsbD_eq fun i hi => ?_
  simp only [joinBytes, lowByte, highByte, BitVec.getLsbD_append, BitVec.getLsbD_extractLsb']
  by_cases h : i < 8
  · simp [h]
  · have h8 : i - 8 < 8 := by omega
    have hi8 : 8 + (i - 8) = i := by omega
    simp [h, h8, hi8]

/-- The offset each slot holds after `LINE` (rule R89). -/
theorem prepareLine_offset (c : Cfg) (v : Byte) (s : State) (i : Fin 16) :
    offsetOf c (prepareLine c v s) i =
      if writesBack c (lineStart v s) i then newOffset c (lineStart v s) i else offsetOf c s i := by
  have law := prepareLine_law c v s
  have hself : ∀ k, 6 ≤ k → k < 8 → writesBack c (lineStart v s) i ≠ true →
      slotByte c (prepareLine c v s) (slotAddr i k) = slotByte c (lineStart v s) (slotAddr i k) :=
    fun k h6 h8 hno => law.kept _ fun j _ hw => by
      have hne : j ≠ i := fun e => hno (e ▸ hw)
      have : j.val ≠ i.val := fun e => hne (Fin.ext e)
      simp only [slotAddr]
      omega
  unfold offsetOf slotField
  split
  · next h => rw [(law.written i i.isLt h).1, (law.written i i.isLt h).2, joinBytes_split]
  · next h =>
    rw [hself 6 (by omega) (by omega) h, hself 7 (by omega) (by omega) h]
    rfl

/-- The bytes of a slot that `LINE` never writes (rule R94). -/
theorem prepareLine_slotByte (c : Cfg) (v : Byte) (s : State) (a : Nat) (h : a % 8 < 6 ∨ 128 ≤ a) :
    slotByte c (prepareLine c v s) a = slotByte c s a :=
  (prepareLine_law c v s).kept a fun i _ _ => by
    simp only [slotAddr]
    omega

/-- The slot RAM keeps its canonical form through the scan. -/
theorem writeBack_wf (c : Cfg) (i : Fin 16) (s : State) (h : Memory.wf c.powerOn.slot 128 s.slot = true) :
    Memory.wf c.powerOn.slot 128 (writeBack c i s).slot = true := by
  unfold writeBack
  split
  · exact h
  · refine memWf_write _ _ ?_ (memWf_write _ _ ?_ h) <;> simp only [slotAddr] <;> omega

theorem prepareLine_wf (c : Cfg) (v : Byte) (s : State) (h : Memory.wf c.powerOn.slot 128 s.slot = true) :
    Memory.wf c.powerOn.slot 128 (prepareLine c v s).slot = true := by
  rw [prepareLine_eq]
  suffices ∀ n, Memory.wf c.powerOn.slot 128 (prepareUpTo c (lineStart v s) n).slot = true from this 16
  intro n
  induction n with
  | zero => exact h
  | succ n ih =>
    simp only [prepareUpTo]
    split
    · unfold prepareSlot
      split
      · exact writeBack_wf c _ _ ih
      · exact ih
    · exact ih

end Sys2Proof.Machine
end

