-- ==== Sys2Proof/Laws/Oscillator.lean ====
section
/-!
SUPPORT. The laws of the oscillator (40_oscillator.md rules R76, R78): the clamp, the signs of the intermediate values and the
bound that keeps the step inside 32 bits.
-/

namespace Sys2Proof.Machine

/-- The clamp as a maximum and a minimum. -/
theorem clampVolts_eq (x : ℝ) : clampVolts x = max 0 (min 5 x) := by
  unfold clampVolts
  split_ifs with h1 h2
  · rw [min_eq_right (by linarith), max_eq_left h1.le]
  · rw [min_eq_left h2.le]
    norm_num
  · rw [min_eq_right (by linarith), max_eq_right (by linarith)]

theorem clampVolts_nonneg (x : ℝ) : 0 ≤ clampVolts x := clampVolts_eq x ▸ le_max_left _ _

theorem clampVolts_le (x : ℝ) : clampVolts x ≤ 5 := clampVolts_eq x ▸ max_le (by norm_num) (min_le_left _ _)

theorem refCurrent_pos {rb : ℝ} (h : 0 ≤ rb) : 0 < refCurrent rb := by
  unfold refCurrent
  exact div_pos (by norm_num) (by linarith)

theorem refVoltage_pos {ra : ℝ} (h : 0 ≤ ra) : 0 < refVoltage ra := by
  unfold refVoltage
  exact div_pos (by norm_num) (by linarith)

theorem outCurrent_nonneg (code : Byte) {rb : ℝ} (h : 0 ≤ rb) : 0 ≤ outCurrent code rb := by
  unfold outCurrent
  have := refCurrent_pos h
  positivity

/-- The frequency in base clocks per device pixel, times 2^24, before the floor (rule R76 step 6). -/
noncomputable def scaledFreq (c : Cfg) (cv : ℝ) : ℝ := c.fvco cv c.cext / ((baseClock * c.hscale : Nat) : ℝ) * (2 ^ 24 : Nat)

theorem rawStep_eq (c : Cfg) (code : Byte) (r : ℝ × ℝ) :
    rawStep c code r = ⌊scaledFreq c (controlVoltage code r.1 r.2)⌋ := rfl

/-- A well-formed curve keeps the step between 0 and 2^32 (rule R76, last paragraph). -/
theorem rawStep_bound {c : Cfg} (h : c.WF) (code : Byte) (r : ℝ × ℝ) :
    0 ≤ rawStep c code r ∧ rawStep c code r < 2 ^ 32 := by
  obtain ⟨h0, h1⟩ := h.fvco_bound (controlVoltage code r.1 r.2) (clampVolts_nonneg _) (clampVolts_le _)
  have hpos : (0 : ℝ) < ((baseClock * c.hscale : Nat) : ℝ) := by
    have := h.hscale_pos
    exact_mod_cast (show 0 < baseClock * c.hscale by unfold baseClock; omega)
  have hq0 := div_nonneg h0 hpos.le
  have hq1 : c.fvco (controlVoltage code r.1 r.2) c.cext / ((baseClock * c.hscale : Nat) : ℝ) < 256 := by
    rw [div_lt_iff₀ hpos]
    calc _ < ((baseClock * c.hscale * 256 : Nat) : ℝ) := h1
      _ = _ := by push_cast; ring
  rw [rawStep_eq, scaledFreq]
  constructor
  · exact Int.floor_nonneg.mpr (mul_nonneg hq0 (by norm_num))
  · rw [Int.floor_lt]
    have : ((2 ^ 24 : Nat) : ℝ) = 16777216 := by norm_num
    rw [this]
    norm_num only
    linarith

/-- The step rate an operation takes is that of rule R76. -/
theorem nextStepRate_eq {c : Cfg} (h : c.WF) (code : Byte) (s : State) :
    nextStepRate c code s = stepRate c code (resistances c s.draws) := h.stepRates_eq _ _

end Sys2Proof.Machine
end

