-- ==== Sys2Proof/Laws/PerInstr.lean ====
section
/-!
SUPPORT. One statement per constructor of `Instr`: the word the encoder gives is the one the assembler writes, with every
ignored field zero (30_encoding.md rule R62), and the operation is well-formed.
-/

namespace Sys2Proof.Laws.Canonical

/-- The encoder writes the canonical word of a well-formed operation. -/
def Statement (i : Instr) : Prop := canonicalWord (encode i) = true ∧ i.wellFormed = true

theorem canonicalWord_packWord (op sel : BitVec 4) (addr : Half) (arg : Byte)
    (h : packWord op sel addr arg &&& usedBitsOfOp op = packWord op sel addr arg) :
    canonicalWord (packWord op sel addr arg) = true := by
  unfold canonicalWord
  rw [show (packWord op sel addr arg).extractLsb' 28 4 = op from opField_packWord op sel addr arg, h]
  exact beq_self_eq_true _

theorem nop : Statement .nop := ⟨by decide, rfl⟩

theorem rst : Statement .rst := ⟨by decide, rfl⟩

theorem cclr : Statement .cclr := ⟨by decide, rfl⟩

theorem osc (code : Byte) : Statement (.osc code) := by
  refine ⟨canonicalWord_packWord _ _ _ _ ?_, rfl⟩
  revert code
  decide +kernel

theorem line (v : Byte) : Statement (.line v) := by
  refine ⟨canonicalWord_packWord _ _ _ _ ?_, rfl⟩
  revert v
  decide +kernel

theorem fetch : Statement .fetch := ⟨by decide, rfl⟩

theorem pix : Statement .pix := ⟨by decide, rfl⟩

theorem hwr (sel : BitVec 4) (addr : Half) (data : Byte) : Statement (.hwr sel addr data) :=
  ⟨canonicalWord_packWord _ _ _ _ (BitVec.and_allOnes), rfl⟩

theorem hrd (sel : BitVec 4) (addr : Half) : Statement (.hrd sel addr) := by
  refine ⟨canonicalWord_packWord _ _ _ _ ?_, rfl⟩
  have mask : ∀ i : Fin 32, ¬ i.val < 8 → (0xFFFFFF00#32).getLsbD i.val = true := by decide
  refine BitVec.eq_of_getLsbD_eq fun i hi => ?_
  rw [BitVec.getLsbD_and, packWord_bit, show usedBitsOfOp 0x8#4 = 0xFFFFFF00#32 from rfl]
  by_cases h : i < 8
  · rw [if_pos h, BitVec.getLsbD_zero, Bool.false_and]
  · rw [mask ⟨i, hi⟩ h, Bool.and_true]

theorem rsv9 : Statement .rsv9 := ⟨by decide, rfl⟩

theorem rsvA : Statement .rsvA := ⟨by decide, rfl⟩

theorem rsvB : Statement .rsvB := ⟨by decide, rfl⟩

theorem rsvC : Statement .rsvC := ⟨by decide, rfl⟩

theorem rsvD : Statement .rsvD := ⟨by decide, rfl⟩

theorem rsvE : Statement .rsvE := ⟨by decide, rfl⟩

theorem rsvF : Statement .rsvF := ⟨by decide, rfl⟩

end Sys2Proof.Laws.Canonical
end

