-- ==== Sys2Proof/Laws/Pixel.lean ====
section
/-!
SUPPORT. The laws of the compositor: a board pixel is the enable latch, the area step and one fetch per evaluation
(43_compositor.md rules R111, R116); what it leaves in the row, the collision register and the scan position (rules R119,
R121, R122); what it leaves alone.
-/

namespace Sys2Proof.Machine

/-! ### Filling the row -/

theorem fillFb_frame (c : Cfg) (base idx n : Nat) (s : State) :
    fillFb c base idx n s = { s with fb := (fillFb c base idx n s).fb } := by
  induction n with
  | zero => rfl
  | succ n ih =>
    rw [fillFb, ih]
    rfl

theorem fillFb_entry (c : Cfg) (base idx n : Nat) (s : State) (x : Nat) :
    fbEntry c (fillFb c base idx n s) x = if base ≤ x ∧ x < base + n then idx else fbEntry c s x := by
  induction n with
  | zero => simp [fillFb]
  | succ n ih =>
    rw [fillFb, fbEntry_setFbEntry, ih]
    split_ifs <;> first | rfl | omega

theorem fillFb_wf (c : Cfg) (base idx n size : Nat) (s : State) (hb : base + n ≤ size)
    (h : memWf c.powerOn.fb size s.fb = true) : memWf c.powerOn.fb size (fillFb c base idx n s).fb = true := by
  induction n with
  | zero => exact h
  | succ n ih => exact memWf_write _ _ (by omega) (ih (by omega))

/-! ### What a fetch depends on -/

/-- Two states that a fetch cannot tell apart. -/
structure SameFetch (s t : State) : Prop where
  lst : s.lst = t.lst
  road : s.roadLeft = t.roadLeft
  levels : s.levels = t.levels

theorem bits8_ext {x y : BitVec 8} (h : ∀ k : Fin 8, x.getLsbD k.val = y.getLsbD k.val) : x = y :=
  BitVec.eq_of_getLsbD_eq fun i hi => h ⟨i, hi⟩

theorem SameFetch.live {s t : State} (h : SameFetch s t) (c : Cfg) : liveSet c s = liveSet c t := by
  simp [liveSet, h.lst, h.road]

theorem SameFetch.fetch {s t : State} (h : SameFetch s t) (c : Cfg) : SameFetch (fetchAll c s) (fetchAll c t) where
  lst := bits8_ext fun k => by rw [fetchAll_lst, fetchAll_lst, h.live c, h.lst, level_congr h.levels]
  road := by rw [fetchAll_frame c s, fetchAll_frame c t]; exact h.road
  levels := levels_ext fun l => by rw [fetchAll_level, fetchAll_level, h.live c, level_congr h.levels]

theorem SameFetch.sprq {s t : State} (h : SameFetch s t) (c : Cfg) : (fetchAll c s).sprq = (fetchAll c t).sprq := by
  simp only [fetchAll_sprq, compositeWord, h.live c, level_congr h.levels]

theorem SameFetch.plbq {s t : State} (h : SameFetch s t) (c : Cfg) : (fetchAll c s).plbq = (fetchAll c t).plbq := by
  simp only [fetchAll_plbq, compositeBoundary, h.live c, level_congr h.levels]

theorem fetches_frame (c : Cfg) (n : Nat) (s : State) :
    fetches c n s =
      { s with
        lst := (fetches c n s).lst
        levels := (fetches c n s).levels
        sprq := (fetches c n s).sprq
        plbq := (fetches c n s).plbq } := by
  induction n with
  | zero => rfl
  | succ n ih =>
    rw [fetches, fetchAll_frame, ih]

/-! ### The evaluations of a board pixel -/

/-- What the colour of an evaluation depends on. -/
theorem pixelColor_congr {s t : State} (c : Cfg) (p : BoardPixel) (k : Nat) (hs : s.sprq = t.sprq)
    (hp : s.plbq = t.plbq) (hl : s.latch = t.latch) (hv : s.v = t.v) (hh : s.h = t.h) (hstar : s.star = t.star) :
    pixelColor c p k s = pixelColor c p k t := by
  have hpl : starPlane c s = starPlane c t := by
    unfold starPlane
    exact List.map_congr_left fun a _ => starByte_congr hstar a
  unfold pixelColor v3Chain muxColor selectCode
  rw [hs, hp, hl, hv, hh, hpl]

/-- One evaluation is a fetch, then changes of the collision register and the row. -/
theorem evaluate_frame (c : Cfg) (p : BoardPixel) (k : Nat) (s : State) :
    evaluate c p k s =
      { fetchAll c s with
        coll := collAfter c (fetchAll c s).coll (fetchAll c s).sprq p.area (fetchAll c s).latch
        fb := (evaluate c p k s).fb } := by
  unfold evaluate
  rw [fillFb_frame]
  rfl

/-- The first `n` evaluations in terms of `n` fetches. -/
structure EvalLaw (c : Cfg) (p : BoardPixel) (s t : State) (n : Nat) : Prop where
  frame : t =
    { s with
      lst := (fetches c n s).lst
      levels := (fetches c n s).levels
      sprq := (fetches c n s).sprq
      plbq := (fetches c n s).plbq
      coll := t.coll
      fb := t.fb }
  coll : t.coll = if hasCollision c then s.coll ||| collisionsOf c p.area s n else s.coll
  outside : ∀ x, (x < s.h.toNat * c.hscale ∨ s.h.toNat * c.hscale + n * rep c ≤ x) → fbEntry c t x = fbEntry c s x
  inside : ∀ k r, k < n → r < rep c →
    fbEntry c t (s.h.toNat * c.hscale + k * rep c + r) = pixelColor c p k (fetches c (k + 1) s)

theorem evaluations_law (c : Cfg) (p : BoardPixel) (s : State) : ∀ n, EvalLaw c p s (evaluations c p n s) n
  | 0 => by
    refine ⟨rfl, ?_, fun _ _ => rfl, fun k r hk => absurd hk (Nat.not_lt_zero _)⟩
    simp [evaluations, collisionsOf]
  | n + 1 => by
    have ih := evaluations_law c p s n
    rw [evaluations]
    generalize evaluations c p n s = t at ih
    have hsame : SameFetch t (fetches c n s) := by
      rw [ih.frame]
      exact ⟨rfl, by rw [fetches_frame], rfl⟩
    have hlatch : t.latch = s.latch := by rw [ih.frame]
    have hv : t.v = s.v := by rw [ih.frame]
    have hh : t.h = s.h := by rw [ih.frame]
    have hstar : t.star = s.star := by rw [ih.frame]
    have hspr : (fetchAll c t).sprq = (fetches c (n + 1) s).sprq := hsame.sprq c
    have hplb : (fetchAll c t).plbq = (fetches c (n + 1) s).plbq := hsame.plbq c
    have hF : ∀ m, (fetches c m s).latch = s.latch ∧ (fetches c m s).v = s.v ∧ (fetches c m s).h = s.h ∧
        (fetches c m s).star = s.star := fun m => by
      rw [fetches_frame]; exact ⟨rfl, rfl, rfl, rfl⟩
    have hcolor : pixelColor c p n (collide c p (fetchAll c t)) = pixelColor c p n (fetches c (n + 1) s) := by
      obtain ⟨f1, f2, f3, f4⟩ := hF (n + 1)
      refine pixelColor_congr c p n hspr hplb ?_ ?_ ?_ ?_
      · rw [f1, fetchAll_frame c t]; exact hlatch
      · rw [f2, fetchAll_frame c t]; exact hv
      · rw [f3, fetchAll_frame c t]; exact hh
      · rw [f4, fetchAll_frame c t]; exact hstar
    have hbase : fbBase c (collide c p (fetchAll c t)) n = s.h.toNat * c.hscale + n * rep c := by
      unfold fbBase collide
      rw [fetchAll_frame c t]
      simp only [hh]
    have hentry : ∀ x, fbEntry c (evaluate c p n t) x =
        if s.h.toNat * c.hscale + n * rep c ≤ x ∧ x < s.h.toNat * c.hscale + n * rep c + rep c
        then pixelColor c p n (fetches c (n + 1) s) else fbEntry c t x := fun x => by
      unfold evaluate
      rw [fillFb_entry, hbase, hcolor]
      have : fbEntry c (collide c p (fetchAll c t)) x = fbEntry c t x := by
        refine fbEntry_congr ?_ x
        unfold collide
        rw [fetchAll_frame c t]
      rw [this]
    have hf := hsame.fetch c
    refine ⟨?_, ?_, fun x hx => ?_, fun k r hk hr => ?_⟩
    · rw [evaluate_frame, fetchAll_frame c t, hf.lst, hf.levels, hspr, hplb]
      rw [ih.frame]
      rfl
    · rw [evaluate_frame]
      have hc : (fetchAll c t).coll = t.coll := by rw [fetchAll_frame c t]
      have hl : (fetchAll c t).latch = s.latch := by rw [fetchAll_frame c t]; exact hlatch
      simp only [collAfter, hc, hl, hspr, ih.coll, collisionsOf]
      split
      · rw [BitVec.or_assoc]
      · rfl
    · rw [hentry, if_neg, ih.outside x]
      · rcases hx with hx | hx
        · exact .inl hx
        · exact .inr (by rw [Nat.add_mul] at hx; omega)
      · rcases hx with hx | hx
        · omega
        · rw [Nat.add_mul] at hx; omega
    · rw [hentry]
      rcases Nat.lt_succ_iff_lt_or_eq.mp hk with hlt | rfl
      · have hle : (k + 1) * rep c ≤ n * rep c := Nat.mul_le_mul_right _ hlt
        rw [Nat.add_mul, Nat.one_mul] at hle
        rw [if_neg (by omega), ih.inside k r hlt hr]
      · rw [if_pos (by omega)]

/-! ### One board pixel -/

/-- A board pixel in closed form. -/
theorem producePixel_eq (c : Cfg) (s : State) :
    producePixel c s = advanceScan (evaluations c (boardPixel c (latched c s)) c.subpix (latched c s)) := rfl

theorem latched_frame (c : Cfg) (s : State) :
    latched c s = { s with lst := (latched c s).lst, roadLeft := (latched c s).roadLeft } := rfl

/-- Everything `PIX` can change. -/
theorem producePixel_frame (c : Cfg) (s : State) :
    producePixel c s =
      { s with
        lst := (fetches c c.subpix (latched c s)).lst
        roadLeft := (latched c s).roadLeft
        levels := (fetches c c.subpix (latched c s)).levels
        sprq := (fetches c c.subpix (latched c s)).sprq
        plbq := (fetches c c.subpix (latched c s)).plbq
        coll := (producePixel c s).coll
        fb := (producePixel c s).fb
        h := s.h + 1#8
        busy := busyAfter s.busy (s.h + 1#8) } := by
  rw [producePixel_eq]
  rw [(evaluations_law c (boardPixel c (latched c s)) (latched c s) c.subpix).frame]
  rfl

theorem producePixel_coll (c : Cfg) (s : State) :
    (producePixel c s).coll =
      if hasCollision c then s.coll ||| collisionsOf c (pixelArea c s) (latched c s) c.subpix else s.coll :=
  (evaluations_law c (boardPixel c (latched c s)) (latched c s) c.subpix).coll

theorem producePixel_outside (c : Cfg) (s : State) (x : Nat)
    (hx : x < s.h.toNat * c.hscale ∨ s.h.toNat * c.hscale + c.subpix * rep c ≤ x) :
    fbEntry c (producePixel c s) x = fbEntry c s x :=
  (evaluations_law c (boardPixel c (latched c s)) (latched c s) c.subpix).outside x hx

theorem producePixel_inside (c : Cfg) (s : State) (k r : Nat) (hk : k < c.subpix) (hr : r < rep c) :
    fbEntry c (producePixel c s) (s.h.toNat * c.hscale + k * rep c + r) =
      pixelColor c (boardPixel c (latched c s)) k (fetches c (k + 1) (latched c s)) :=
  (evaluations_law c (boardPixel c (latched c s)) (latched c s) c.subpix).inside k r hk hr

/-! ### What fetches keep -/

/-- A property of level registers that an advance keeps is kept by any number of fetches. -/
theorem fetches_level_all (c : Cfg) {P : Fin 8 → Level → Prop} (hP : ∀ l lv, P l lv → P l (advanceLevel c l lv).1)
    (n : Nat) {s : State} (h : ∀ l, P l (s.level l)) : ∀ l, P l ((fetches c n s).level l) := by
  induction n with
  | zero => exact h
  | succ n ih =>
    intro l
    rw [fetches, fetchAll_level]
    split
    · exact hP l _ (ih l)
    · exact ih l

/-- Fetches clear live bits and set none. -/
theorem fetches_lst_le (c : Cfg) (n : Nat) (s : State) (k : Fin 8) (h : (fetches c n s).lst.getLsbD k.val = true) :
    s.lst.getLsbD k.val = true := by
  induction n with
  | zero => exact h
  | succ n ih =>
    rw [fetches, fetchAll_lst, Bool.and_eq_true] at h
    exact ih h.1

/-- The `n`-fold `FETCH` is `n` fetches. -/
theorem execTimes_fetch (n : Nat) (s : State) : execTimes .fetch n s = .next (fetches Config.cfg n s) := by
  induction n with
  | zero => rfl
  | succ n ih => simp only [execTimes, ih]; rfl

/-! ### The machine's own descriptor, the form of the row -/

/-- With `SUBPIX = HSCALE` each evaluation fills one device pixel. -/
theorem rep_cfg : rep Config.cfg = 1 := by
  unfold rep
  rw [Config.cfg_subpix]
  exact Nat.div_self Config.cfg_wf.hscale_pos

/-- Which evaluations set a collision bit (rule R119). -/
theorem collisionsOf_bit (c : Cfg) (area : BitVec 5) (s : State) (n b : Nat) :
    (collisionsOf c area s n).getLsbD b = true ↔
      ∃ k, k < n ∧ (c.hooks.collBits (fetches c (k + 1) s).sprq area s.latch).getLsbD b = true := by
  induction n with
  | zero => simp [collisionsOf]
  | succ n ih =>
    rw [collisionsOf, BitVec.getLsbD_or, Bool.or_eq_true, ih]
    constructor
    · rintro (⟨k, hk, h⟩ | h)
      · exact ⟨k, by omega, h⟩
      · exact ⟨n, by omega, h⟩
    · rintro ⟨k, hk, h⟩
      rcases Nat.lt_succ_iff_lt_or_eq.mp hk with hk | rfl
      · exact .inl ⟨k, hk, h⟩
      · exact .inr h

/-- Every colour is a colour index (10_state.md rule R21). -/
theorem pixelColor_lt {c : Cfg} (hc : c.WF) (p : BoardPixel) (k : Nat) (s : State) : pixelColor c p k s < c.nColors := by
  unfold pixelColor v3Chain muxColor
  split_ifs
  · exact hc.fgColorA_lt _ _
  · exact hc.finalColor_lt _ _
  · exact hc.fgColorB_lt _ _
  · exact hc.starColor_lt
  · exact hc.gradient_lt _ _ _
  · exact hc.finalColor_lt _ _

/-- The row stays canonical and inside its length through the evaluations. -/
theorem evaluations_fb_wf {c : Cfg} (hc : c.WF) (p : BoardPixel) (s : State)
    (h : memWf c.powerOn.fb (hpix * c.hscale) s.fb = true) :
    ∀ n, n ≤ c.subpix → memWf c.powerOn.fb (hpix * c.hscale) (evaluations c p n s).fb = true
  | 0, _ => h
  | n + 1, hn => by
    have ih := evaluations_fb_wf hc p s h n (by omega)
    have hh : (collide c p (fetchAll c (evaluations c p n s))).h = s.h := by
      unfold collide
      rw [fetchAll_frame, (evaluations_law c p s n).frame]
    have hfb : (collide c p (fetchAll c (evaluations c p n s))).fb = (evaluations c p n s).fb := by
      unfold collide
      rw [fetchAll_frame]
    have hrep : c.subpix * rep c = c.hscale := Nat.mul_div_cancel' hc.subpix_dvd
    have hk : (n + 1) * rep c ≤ c.subpix * rep c := Nat.mul_le_mul_right _ hn
    have hrow : (s.h.toNat + 1) * c.hscale ≤ 256 * c.hscale := Nat.mul_le_mul_right _ (by have := s.h.isLt; omega)
    rw [Nat.add_mul, Nat.one_mul] at hk hrow
    rw [evaluations]
    unfold evaluate
    refine fillFb_wf _ _ _ _ _ _ ?_ (hfb ▸ ih)
    unfold fbBase hpix
    rw [hh]
    omega

/-- The entries of the row stay colour indices. -/
theorem producePixel_colour_lt {c : Cfg} (hc : c.WF) (s : State) (h : ∀ x, fbEntry c s x < c.nColors) (x : Nat) :
    fbEntry c (producePixel c s) x < c.nColors := by
  by_cases hx : x < s.h.toNat * c.hscale ∨ s.h.toNat * c.hscale + c.subpix * rep c ≤ x
  · rw [producePixel_outside c s x hx]
    exact h x
  · have hr : 0 < rep c := Nat.div_pos (Nat.le_of_dvd hc.hscale_pos hc.subpix_dvd) hc.subpix_pos
    have hdiv := Nat.div_add_mod (x - s.h.toNat * c.hscale) (rep c)
    rw [Nat.mul_comm] at hdiv
    rw [show x = s.h.toNat * c.hscale + (x - s.h.toNat * c.hscale) / rep c * rep c + (x - s.h.toNat * c.hscale) % rep c by
      omega]
    rw [producePixel_inside c s _ _ (by rw [Nat.div_lt_iff_lt_mul hr]; omega) (Nat.mod_lt _ hr)]
    exact pixelColor_lt hc _ _ _

end Sys2Proof.Machine
end

