-- ==== Sys2Proof/Laws/Step.lean ====
section
/-!
SUPPORT. What a step and each arm of `exec` can answer, said once: the inversion of `step`, the two outcomes of `PIX`, what a
host write can change.
-/

namespace Sys2Proof.Machine

/-- Everything a step that goes on can have done: nothing (no operation pending), or the oldest pending operation. -/
theorem step_next {s t : State} (h : step s = .next t) :
    t = s ∨ ∃ w ws, s.pending = w :: ws ∧ exec (decodeWord w) { s with pending := ws } = .next t := by
  unfold step at h
  split at h
  · cases h
    exact .inl rfl
  · next w ws hp => exact .inr ⟨w, ws, hp, h⟩

/-- A property kept by dropping pending words and by every operation is kept by every step. -/
theorem step_keeps {P : State → Prop} (hdrop : ∀ s ws, P s → P { s with pending := ws })
    (hexec : ∀ i s t, P s → exec i s = .next t → P t) (s t : State) (hs : P s) (h : step s = .next t) : P t := by
  rcases step_next h with rfl | ⟨w, ws, _, h⟩
  · exact hs
  · exact hexec _ _ _ (hdrop s ws hs) h

/-- `PIX` goes on exactly when a scanline is in progress. -/
theorem exec_pix_next {s t : State} : exec .pix s = .next t ↔ s.busy = true ∧ producePixel Config.cfg s = t := by
  show execPix s = .next t ↔ _
  unfold execPix
  cases s.busy
  · simp
  · exact ⟨fun h => ⟨rfl, Host.Outcome.next.inj h⟩, fun h => congrArg _ h.2⟩

/-- The spaces by their selectors (20_memory.md rule R40). -/
theorem spaceOfSel_none {sel : BitVec 4} (h : 5#4 ≤ sel) : spaceOfSel sel = none := by
  revert sel
  decide

/-- The latches after a write (20_memory.md rule R56). -/
theorem latchGet_latchSet (l : Latches) (a n : Nat) (b : Byte) :
    latchGet (latchSet l a b) n = if n = a ∧ n ≤ 5 then b else latchGet l n := by
  rcases Nat.lt_or_ge a 6 with ha | ha
  · rcases Nat.lt_or_ge n 6 with hn | hn
    · interval_cases a <;> interval_cases n <;> simp [latchGet, latchSet]
    · rw [if_neg (by omega)]
      match n, hn with
      | k + 6, _ => rfl
  · have : latchSet l a b = l := by
      match a, ha with
      | k + 6, _ => rfl
    rw [this, if_neg (by omega)]

/-- What a host write can change. -/
theorem writeSel_frame (c : Cfg) (sel : BitVec 4) (addr : Half) (data : Byte) (s : State) :
    writeSel c sel addr data s =
      { s with
        slot := (writeSel c sel addr data s).slot
        hen := (writeSel c sel addr data s).hen
        star := (writeSel c sel addr data s).star
        latch := (writeSel c sel addr data s).latch } := by
  unfold writeSel
  split
  · next sp _ =>
    cases sp <;> simp only [hostWrite] <;> (try split) <;> rfl
  · rfl

end Sys2Proof.Machine
end

