-- ==== Sys2Proof/Tests/Slice0.lean ====
section
/-!
SUPPORT. Named tests: words written out from the encoding, ill-formed terms that the checks refuse, the vectors of
95_test_vectors.md that one operation shows, and states that meet the hypotheses of the statements. `Config.cfg` is opaque, so a
vector is evaluated with the fixture that its section of the spec names, through the operation that `exec` applies to `Config.cfg`.
-/

namespace Sys2Proof.Tests

open Sys2Proof.Machine

/-! ### Words written out from 30_encoding.md rule R64 and 95_test_vectors.md table E -/

theorem test_decode_nop : decodeWord 0b00000000000000000000000000000000#32 = .nop := by decide

theorem test_decode_rst : decodeWord 0b00010000000000000000000000000000#32 = .rst := by decide

theorem test_decode_cclr : decodeWord 0b00100000000000000000000000000000#32 = .cclr := by decide

theorem test_decode_osc : decodeWord 0b00110000000000000000000010000000#32 = .osc 0x80 := by decide

theorem test_decode_line : decodeWord 0b01000000000000000000000001100100#32 = .line 100 := by decide

theorem test_decode_fetch : decodeWord 0b01010000000000000000000000000000#32 = .fetch := by decide

theorem test_decode_pix : decodeWord 0b01100000000000000000000000000000#32 = .pix := by decide

theorem test_decode_hwr : decodeWord 0b01110001000000010001000000000001#32 = .hwr 1 0x110 0x01 := by decide

theorem test_decode_hrd : decodeWord 0b10000001000000011111111100000000#32 = .hrd 1 0x1FF := by decide

theorem test_decode_reserved :
    [0x90000000#32, 0xA0000000#32, 0xB0000000#32, 0xC0000000#32, 0xD0000000#32, 0xE0000000#32, 0xF0000000#32].map decodeWord =
      [.rsv9, .rsvA, .rsvB, .rsvC, .rsvD, .rsvE, .rsvF] := by decide

/-- Ignored fields (table E, last lines; vectors S11, S12). -/
theorem test_decode_ignored_fields :
    [0x4ABCDE64#32, 0x80FFFF00#32, 0x9ABCDEF0#32, 0x0FFFFFFF#32].map decodeWord =
      [.line 100, .hrd 0 0xFFFF, .rsv9, .nop] := by decide

/-- A command is one word (rule R66). -/
theorem test_decode_longer_refused : decodeTableWord 40 0 = none := by decide

/-- The expansions of rule R68. -/
theorem test_pseudo_expansion :
    (Pseudo.henw 10 1 0).expand = [.hwr 1 10 1, .hwr 1 266 0] ∧ (Pseudo.latw 2 1).expand = [.hwr 2 2 1] ∧ (Pseudo.latw 8 1).expand = [.hwr 2 8 1] ∧
    (Pseudo.slotw 9 0x63 0x65 0xFF 8 0xFF 0xFF 5 0x80).expand.map encode =
      [0x70004863, 0x70004965, 0x70004AFF, 0x70004B08, 0x70004CFF, 0x70004DFF, 0x70004E05, 0x70004F80] := by decide

/-- The bounds of the operands that become an address (rule R68, log 16): each expansion is the `HWR` words of the table. -/
theorem test_pseudo_bounds :
    assembleLine "LATW 8, 1" = some [0x72000801] ∧ assembleLine "LATW 65536, 1" = none ∧
    assembleLine "HENW 65279, 1, 2" = some [0x71FEFF01, 0x71FFFF02] ∧ assembleLine "HENW 65280, 1, 2" = none ∧
    assembleLine "SLOTW 8192, 0, 0, 0, 0, 0, 0, 0, 0" = none := by decide +kernel

/-! ### The fixture T of 95_test_vectors.md section 4 -/

/-- The nibble of a level in a composite word. -/
def nibbleIn (spr : Word) (l : Nat) : Nat :=
  (spr.getLsbD (24 + l)).toNat * 8 + (spr.getLsbD (16 + l)).toNat * 4 + (spr.getLsbD (8 + l)).toNat * 2 + (spr.getLsbD l).toNat

/-- The levels that show something. -/
def shown (spr : Word) : List Nat := [0, 1, 2, 3, 4, 5, 6, 7].filter fun l => decide (nibbleIn spr l ≠ 0)

def hooksT : Hooks :=
  { (default : Hooks) with
    areaBits := fun _ h _ => if 128 ≤ h.toNat then 0x10#5 else 0#5
    offRoad := fun area _ => area.getLsbD 4
    fgCode := fun fgraw _ => fgraw % 256
    bgColor := fun _ _ area _ => 0x20 + (area.getLsbD 4).toNat
    priSelect := fun spr _ _ _ _ => match shown spr with | [] => 0 | l :: _ => l + 1
    muxRgb := fun sel spr bg fgc _ =>
      if sel ≠ 0 then (0x40 + 16 * (sel - 1) + nibbleIn spr (sel - 1), 0, 0) else if fgc ≠ 0 then (fgc, 0, 0) else (bg, 0, 0)
    finalColor := fun rgb _ => rgb.1 % 256
    collBits := fun spr area _ =>
      (if 2 ≤ (shown spr).length then 1#8 else 0#8) ||| (if area.getLsbD 4 && spr != 0#32 then 2#8 else 0#8) }

def romT (a : Nat) : Byte :=
  if a = 0x1008 then 0x9A#8 else if a = 0x1009 then 0xBC#8 else if a = 0x100A then 0x8F#8 else if a = 0x100B then 0x49#8
  else if a = 0x4000 then 0x5E#8 else if a = 0x4001 then 0xDC#8 else if a = 0x4002 then 0xB0#8 else 0#8

/-- The fixture without its step rates. -/
def cfgT0 : Cfg :=
  { (default : Cfg) with
    variant := .v1, hscale := 2, subpix := 2, ra := 1000, rb := 1000, cext := 1, fvco := fun cv _ => 2000000 * cv
    slXor := 0xFF#8, ytable := fun i => i.extractLsb' 0 8, bankShift := 14, romBits := 17, sprrom := romT, nColors := 256
    hooks := hooksT
    inputs := { fg := fun _ v c => if c.toNat % 16 = 0 then v.toNat % 4 + 1 else 0, pot := fun _ => (0, 0) } }

noncomputable def cfgT : Cfg := { cfgT0 with stepRates := stepRate cfgT0 }

/-- The V2-shaped fixture of vector F3. -/
noncomputable def cfgB : Cfg :=
  { cfgT with
    variant := .v2, romBits := 17
    classifyOpen := fun n => { ends := n == 0xF#4, boundary := n.getLsbD 3 }
    sprrom := fun a => if a = 0x14010 then 0x18#8 else if a = 0x14011 then 0x2F#8 else if a = 0x14012 then 0x77#8 else 0#8 }

/-- Fixture T is well-formed: this is also the witness of every hypothesis `c.WF`. -/
theorem test_wf_fixture : cfgT.WF where
  hscale_pos := by decide
  subpix_pos := by decide
  subpix_dvd := by decide
  ra_nonneg := show (0 : ℝ) ≤ 1000 by norm_num
  rb_nonneg := show (0 : ℝ) ≤ 1000 by norm_num
  cext_pos := show (0 : ℝ) < 1 by norm_num
  pot_nonneg _ := ⟨le_refl 0, le_refl 0⟩
  fvco_bound cv h0 h5 := by
    show 0 ≤ 2000000 * cv ∧ 2000000 * cv < ((5000000 * 2 * 256 : Nat) : ℝ)
    constructor
    · linarith
    · norm_num
      linarith
  stepRates_eq _ _ := rfl
  slXor_legal := .inr rfl
  bankShift_min := by decide
  rom_len := by decide
  nColors_pos := by decide
  finalColor_lt rgb _ := Nat.mod_lt rgb.1 (by decide)
  fgColorA_lt _ _ := show 0 < 256 by decide
  fgColorB_lt _ _ := show 0 < 256 by decide
  starColor_lt := by decide
  gradient_lt _ _ _ := show 0 < 256 by decide
  fb_lt _ := show 0 < 256 by decide

/-! ### One ill-formed term for each check -/

theorem test_wf_hscale : ¬ Cfg.WF { cfgT with hscale := 0 } := fun h => absurd h.hscale_pos (by decide)

theorem test_wf_subpix_pos : ¬ Cfg.WF { cfgT with subpix := 0 } := fun h => absurd h.subpix_pos (by decide)

theorem test_wf_subpix_dvd : ¬ Cfg.WF { cfgT with subpix := 3 } := fun h => absurd h.subpix_dvd (by decide)

theorem test_wf_ra : ¬ Cfg.WF { cfgT with ra := -4800 } := fun h => absurd h.ra_nonneg (by norm_num)

theorem test_wf_rb : ¬ Cfg.WF { cfgT with rb := -1500 } := fun h => absurd h.rb_nonneg (by norm_num)

theorem test_wf_cext : ¬ Cfg.WF { cfgT with cext := 0 } := fun h => absurd h.cext_pos (by norm_num)

theorem test_wf_pot : ¬ Cfg.WF { cfgT with inputs := { cfgT.inputs with pot := fun _ => (-1, 0) } } :=
  fun h => absurd (h.pot_nonneg 0).1 (by norm_num)

theorem test_wf_fvco_low : ¬ Cfg.WF { cfgT with fvco := fun _ _ => -1 } := fun h =>
  absurd (h.fvco_bound 0 (by norm_num) (by norm_num)).1 (by norm_num)

theorem test_wf_fvco_high : ¬ Cfg.WF { cfgT with fvco := fun _ _ => 2560000000 } := fun h =>
  absurd (h.fvco_bound 0 (by norm_num) (by norm_num)).2 (by norm_num [baseClock, cfgT, cfgT0])

/-- Step rates other than the formula's: it gives code 0 of a curve of 0 Hz the step 0. -/
theorem test_wf_stepRates : ¬ Cfg.WF { cfgT with fvco := fun _ _ => 0, stepRates := fun _ _ => 1 } := fun h =>
  absurd (h.stepRates_eq 0 (0, 0)) (by simp [stepRate, rawStep])

theorem test_wf_slXor : ¬ Cfg.WF { cfgT with slXor := 0x0F#8 } := fun h => absurd h.slXor_legal (by decide)

theorem test_wf_bankShift : ¬ Cfg.WF { cfgT with bankShift := 13 } := fun h => absurd h.bankShift_min (by decide)

theorem test_wf_rom : ¬ Cfg.WF { cfgT with romBits := 16 } := fun h => absurd h.rom_len (by decide)

theorem test_wf_nColors : ¬ Cfg.WF { cfgT with nColors := 0 } := fun h => absurd h.nColors_pos (by decide)

theorem test_wf_finalColor : ¬ Cfg.WF { cfgT with hooks := { hooksT with finalColor := fun _ _ => 256 } } := fun h =>
  absurd (h.finalColor_lt (0, 0, 0) default) (by decide)

theorem test_wf_fgColorA : ¬ Cfg.WF { cfgT with hooks := { hooksT with fgColorA := fun _ _ => 256 } } := fun h =>
  absurd (h.fgColorA_lt 0 default) (by decide)

theorem test_wf_fgColorB : ¬ Cfg.WF { cfgT with hooks := { hooksT with fgColorB := fun _ _ => 256 } } := fun h =>
  absurd (h.fgColorB_lt 0 default) (by decide)

theorem test_wf_starColor : ¬ Cfg.WF { cfgT with hooks := { hooksT with starColor := 256 } } := fun h =>
  absurd h.starColor_lt (by decide)

theorem test_wf_gradient : ¬ Cfg.WF { cfgT with hooks := { hooksT with gradient := fun _ _ _ => 256 } } := fun h =>
  absurd (h.gradient_lt 0 0 default) (by decide)

theorem test_wf_fb : ¬ Cfg.WF { cfgT with powerOn := { cfgT.powerOn with fb := fun _ => 256 } } := fun h =>
  absurd (h.fb_lt 0) (by decide)

/-- Words the assembler does not write: an ignored bit set in format N, in format A, in format M (rule R62). -/
theorem test_wf_words :
    [0x00000001#32, 0x61000000#32, 0x40000164#32, 0x81000001#32].map canonicalWord = [false, false, false, false] := by
  decide

/-! ### The oscillator: 95_test_vectors.md sections 2.1 to 2.4 -/

/-- The fixture's step from the control voltage. -/
theorem step_of_volts {code : Byte} {r : ℝ × ℝ} {cv : ℝ} {n : Int} (h : controlVoltage code r.1 r.2 = cv)
    (lo : (n : ℝ) ≤ 2000000 * cv / 10000000 * 16777216) (hi : 2000000 * cv / 10000000 * 16777216 < n + 1) :
    stepRate cfgT code r = BitVec.ofInt 32 n := by
  have e : rawStep cfgT code r = ⌊2000000 * cv / ((5000000 * 2 : Nat) : ℝ) * (2 ^ 24 : Nat)⌋ := by rw [← h]; rfl
  have f : 2000000 * cv / ((5000000 * 2 : Nat) : ℝ) * ((2 ^ 24 : Nat) : ℝ) = 2000000 * cv / 10000000 * 16777216 := by
    norm_num
  rw [stepRate, e, f, Int.floor_eq_iff.mpr ⟨lo, hi⟩]

/-- Voltages of tables 2.1 and 2.2, and section 2.4: code 0xF0 is not clamped, 0xF1 is. -/
theorem test_osc_voltage :
    controlVoltage 0x00#8 1000 1000 = 25 / 29 ∧ controlVoltage 0x80#8 1000 1000 = 444 / 145 ∧
    controlVoltage 0x80#8 310 910 = 401550 / 123151 ∧ controlVoltage 0xF0#8 1000 1000 < 5 ∧
    controlVoltage 0xF1#8 1000 1000 = 5 ∧ controlVoltage 0xFF#8 1000 1000 = 5 := by
  refine ⟨?_, ?_, ?_, ?_, ?_, ?_⟩ <;> norm_num [controlVoltage, clampVolts, outCurrent, refCurrent, refVoltage]

/-- Steps of tables 2.1 and 2.2. -/
theorem test_osc_steps :
    stepRate cfgT 0x00#8 (1000, 1000) = 0x002C234F#32 ∧ stepRate cfgT 0x80#8 (1000, 1000) = 0x009CC726#32 ∧
    stepRate cfgT 0xFF#8 (1000, 1000) = 0x01000000#32 ∧ stepRate cfgT 0x80#8 (310, 910) = 0x00A6F1BE#32 := by
  obtain ⟨h0, h1, h2, -, -, h3⟩ := test_osc_voltage
  refine ⟨step_of_volts (n := 0x002C234F) h0 ?_ ?_, step_of_volts (n := 0x009CC726) h1 ?_ ?_,
    step_of_volts (n := 0x01000000) h3 ?_ ?_, step_of_volts (n := 0x00A6F1BE) h2 ?_ ?_⟩ <;> norm_num

/-! ### The line arbiter: 95_test_vectors.md sections 3.1, 3.2 and program P2 -/

/-- One row of table 3.1. -/
noncomputable def adderRow (v sL sH slXor : Byte) : Nat × Bool × Nat × Bool × Bool :=
  let c := { cfgT with slXor := slXor }
  ((sum1 c v sL).toNat, clo c v sL, (sum2 c v sL sH).toNat, chi c v sL sH, slotActive c v sL sH)

theorem test_line_adders :
    [adderRow 0x64 0x50 0x90 0xFF, adderRow 0x64 0x50 0x90 0x00, adderRow 0x64 0x64 0x90 0xFF, adderRow 0x64 0x63 0x64 0xFF,
      adderRow 0x64 0x63 0x65 0xFF, adderRow 0x00 0x00 0xFF 0xFF, adderRow 0xFF 0x00 0xFF 0xFF, adderRow 0xFF 0xFE 0x00 0xFF,
      adderRow 0x80 0x80 0x81 0x00, adderRow 0x80 0x7F 0x80 0xFF] =
    [(0x113, true, 0x0D413, false, true), (0x0B4, false, 0x0D3B4, false, false), (0x0FF, false, 0x0D3FF, false, false),
      (0x100, true, 0x10000, true, false), (0x100, true, 0x0FF00, false, true), (0x0FF, false, 0x000FF, false, false),
      (0x1FE, true, 0x100FE, true, false), (0x100, true, 0x1FF00, true, false), (0x100, true, 0x0FF00, false, true),
      (0x100, true, 0x10000, true, false)] := by decide +kernel

/-- Program P2 before `LINE 100`, slots 0 and 9 (the other slots hold zeros). -/
noncomputable def stateP2 : State :=
  { State.resetWith cfgT with
    slot := [(0, 0x50), (1, 0x90), (2, 0x80), (3, 0x13), (4, 0x10), (7, 0x20),
      (72, 0x63), (73, 0x65), (74, 0xFF), (75, 0x08), (76, 0xFF), (77, 0xFF), (78, 0x05), (79, 0x80)] }

/-- Program P2 after `LINE 100`: the enable bits and the written-back offsets, one of them across the direction bit's word. -/
theorem test_line_p2 :
    (prepareLine cfgT 100 stateP2).ve = 0x0201#16 ∧
    [6, 7, 78, 79].map (slotByte cfgT (prepareLine cfgT 100 stateP2)) = [0x10#8, 0x20#8, 0x04#8, 0x80#8] := by
  decide +kernel

/-- Program P2 after `LINE 100`: the levels of slot 0 and of slot 9. -/
theorem test_line_p2_levels :
    (prepareLine cfgT 100 stateP2).level 0 = initialLevel 0x2010 0x009CC726 ∧
    (prepareLine cfgT 100 stateP2).level 1 = initialLevel 0x8004 0x01000000 := by
  have h0 : winner cfgT (lineStart 100 stateP2) 0 = some 0 := by decide +kernel
  have h1 : winner cfgT (lineStart 100 stateP2) 1 = some 9 := by decide +kernel
  have o0 : newOffset cfgT (lineStart 100 stateP2) 0 = 0x2010 ∧ slotField cfgT (lineStart 100 stateP2) 0 2 = 0x80#8 := by
    decide +kernel
  have o1 : newOffset cfgT (lineStart 100 stateP2) 9 = 0x8004 ∧ slotField cfgT (lineStart 100 stateP2) 9 2 = 0xFF#8 := by
    decide +kernel
  have hr : ∀ n, resistances cfgT n = (1000, 1000) := fun _ => rfl
  have hs : ∀ code, cfgT.stepRates code (1000, 1000) = stepRate cfgT code (1000, 1000) := fun _ => rfl
  obtain ⟨-, s0, s1, -⟩ := test_osc_steps
  rw [prepareLine_level, prepareLine_level, h0, h1]
  simp only [Option.elim, slotLevel, o0, o1, hr, hs, s0, s1]
  exact ⟨rfl, rfl⟩

/-! ### The bit fetcher: vectors F1 and F3 -/

/-- A state whose level `l` has the given registers. -/
def withLevel (c : Cfg) (l : Fin 8) (live : BitVec 8) (lv : Level) : State :=
  { (State.resetWith c).setLevel l lv with lst := live, roadLeft := true }

/-- Vector F1, call 2: three nibbles in one call, only the last stays. -/
theorem test_fetch_f1 :
    let c := { cfgT with sprrom := fun a => if a = 0 then 0x12#8 else if a = 1 then 0x38#8 else if a = 2 then 0x9A#8 else 0xBC#8 }
    let s := withLevel c 0 1 { lat := 0x100, endFlag := false, foff := 2, frac := 0x00800000, step := 0x02800000 }
    (fetchAll c s).sprq = 0x100#32 ∧
    (fetchAll c s).level 0 = { lat := 0x01000001, endFlag := false, foff := 5, frac := 0, step := 0x02800000 } := by
  decide +kernel

/-- Vector F3, calls 3 and 4: the boundary bit comes with its nibble's word, the end nibble clears the live bit. -/
theorem test_fetch_f3 :
    let s := withLevel cfgB 5 0x20 { lat := 0x20000000, endFlag := true, foff := 0x22, frac := 0, step := 0x00800000 }
    let t := fetchAll cfgB s
    t.sprq = 0x20000000#32 ∧ t.plbq = 0x20#8 ∧ t.lst = 0x20#8 ∧ (t.level 5).endFlag = false ∧ (t.level 5).lat = 0x2000#32 ∧
    (fetchAll cfgB t).lst = 0#8 ∧ (fetchAll cfgB t).plbq = 0#8 ∧ ((fetchAll cfgB t).level 5).lat = 0x20202020#32 := by
  decide +kernel

/-! ### The compositor: table H1 and program P3, board pixel 12 -/

theorem test_pix_enable_latch :
    [latchLive 0x00 (enableBits 0x00 0x01 0x020D), latchLive 0x01 (enableBits 0x02 0x00 0x020D),
      latchLive 0x04 (enableBits 0x00 0x20 0x020D), latchLive 0x00 (enableBits 0x02 0x02 0x0202),
      latchLive 0x00 (enableBits 0xFF 0xFF 0x0000), latchLive 0xA5 (enableBits 0x00 0x00 0xFFFF)] =
    [0x01#8, 0x03#8, 0x04#8, 0x02#8, 0x00#8, 0xA5#8] := by decide +kernel

/-- Program P3 before board pixel 12: level 0 shows nibble A, level 1 waits for its enable bit. -/
noncomputable def stateP3 : State :=
  { ((State.resetWith cfgT).setLevel 0
      { lat := 0x01000100, endFlag := false, foff := 0x2012, frac := 0x731C98, step := 0x009CC726 }).setLevel 1
      (initialLevel 0x8004 0x01000000) with
    v := 100, h := 12, busy := true, ve := 0x020D, lst := 0x01, hen := [(268, 0x02)] }

/-- Program P3, board pixel 12: device pixels 24 and 25, the collision bit, the levels. -/
theorem test_pix_p3 :
    let t := producePixel cfgT stateP3
    t.lst = 0x03#8 ∧ [23, 24, 25, 26].map (fbEntry cfgT t) = [0, 0x4A, 0x4B, 0] ∧ t.coll = 1#8 ∧ t.h = 13#8 ∧ t.busy = true ∧
    t.sprq = 0x03000303#32 ∧ (t.level 0).foff = 0x2013#16 ∧ (t.level 1).foff = 0x8002#16 := by decide +kernel

/-! ### System and host operations: vectors S1 to S13 -/

/-- Vector S1. -/
theorem test_rst_s1 :
    let s := { State.resetWith cfgT with coll := 5, v := 7, h := 9, busy := true, lst := 0x81, slot := [(3, 0x7F)] }
    resetRegisters s = { State.resetWith cfgT with slot := [(3, 0x7F)] } := by decide +kernel

/-- Vector S2. -/
theorem test_cclr_s2 :
    exec .cclr { State.reset with coll := 5 } = .next { State.reset with coll := 0 } := rfl

/-- Vectors S3, S5: the address is reduced modulo 128. -/
theorem test_hwr_s5 :
    slotByte cfgT (writeSel cfgT 0 0x0B 0x7F (State.resetWith cfgT)) 0x0B = 0x7F#8 ∧
    slotByte cfgT (writeSel cfgT 0 0x8B 0x11 (writeSel cfgT 0 0x0B 0x7F (State.resetWith cfgT))) 0x0B = 0x11#8 := by
  decide +kernel

/-- Vectors S7, S8, S13: latch 6, the collision register and a starfield of size 0 take no byte. -/
theorem test_hwr_dropped :
    [writeSel cfgT 2 6 0xAA (State.resetWith cfgT), writeSel cfgT 4 0 0xFF (State.resetWith cfgT),
      writeSel cfgT 3 0 0xFF (State.resetWith cfgT)] =
    [State.resetWith cfgT, State.resetWith cfgT, State.resetWith cfgT] := by decide +kernel

/-- Vectors S9, S10, S13. -/
theorem test_hrd_s9 :
    readSel cfgT 4 0x1234 { State.resetWith cfgT with coll := 3 } = 3#8 ∧ readSel cfgT 9 0 (State.resetWith cfgT) = 0#8 ∧
    readSel cfgT 3 0 (State.resetWith cfgT) = 0#8 := by decide +kernel

/-- Writing the byte an unlisted address reads as removes the cell. -/
theorem test_memory_canonical : (writeSel cfgT 0 5 0 (writeSel cfgT 0 5 1 (State.resetWith cfgT))).slot = [] := by
  decide +kernel

/-- Vector S12, through the fetch. -/
theorem test_step_nop : step (State.reset.withFetchWord 32 0x0FFFFFFF) = .next State.reset := rfl

/-- Rule R147: the first `PIX` after reset is refused. -/
theorem test_step_pix_refused : step (State.reset.withFetchWord 32 0x60000000) = .refused .pixWithoutScanline := rfl

/-! ### The hypotheses of the statements can be met -/

/-- An operation waits. -/
def issued : State := { State.reset with pending := [0x20000000#32, 0x50000000#32] }

/-- A scanline is in progress at its last board pixel. -/
def drawing : State := { State.reset with busy := true, h := 0xFF#8, coll := 0x05#8, roadLeft := true, lst := 0x09#8 }

theorem test_hyp_UnusedFieldsAreIgnored : opField 0x40000064#32 = opField 0x4ABCDE64#32 := by decide

theorem test_hyp_SystemWords :
    [0x0FFFFFFF#32, 0x9ABCDEF0#32, 0x10000000#32, 0x2ABCDEF0#32, 0x8101FF00#32].map opField = [0#4, 9#4, 1#4, 2#4, 8#4] := by
  decide

theorem test_hyp_StepRunsTheDecodedOperation :
    issued.pending = 0x20000000#32 :: [0x50000000#32] ∧ State.reset.pending = [] ∧ 0xFFFFFFFF < 2 ^ 32 := by
  exact ⟨rfl, rfl, by decide⟩

theorem test_hyp_ReservedWordsHaveNoEffect :
    (∀ w : Word, { State.reset with pending := [w] }.pending = w :: []) ∧
    [0x00000000#32, 0x0FFFFFFF#32].map opField = [0#4, 0#4] ∧
    [0x90000000#32, 0xFFFFFFFF#32].map (fun w => decide (9#4 ≤ opField w)) = [true, true] :=
  ⟨fun _ => rfl, by decide, by decide⟩

theorem test_hyp_HwrToNothingIsDropped :
    (2#4 = 2#4 ∧ 6 ≤ (6#16).toNat % 8) ∧ (2#4 = 2#4 ∧ 6 ≤ (0xFFFF#16).toNat % 8) ∧ 4#4 ≤ 4#4 ∧ 4#4 ≤ 15#4 := by decide

/-- The machine's variant is open: `cfgT` is a descriptor to which the clauses on V1 apply, `cfgB` one for those on V2. -/
theorem test_hyp_variants : cfgT.variant = .v1 ∧ cfgT.variant ≠ .v3 ∧ cfgB.variant ≠ .v1 ∧ cfgB.variant ≠ .v3 := by decide

theorem test_hyp_WrittenByteReadsBack :
    (0#4 = 0#4 ∧ (0x8B#16).toNat % 128 = (0x0B#16).toNat % 128) ∧ (1#4 = 1#4 ∧ (0x200#16).toNat % 512 = (0#16).toNat % 512) ∧
    (2#4 = 2#4 ∧ (5#16).toNat % 8 = (13#16).toNat % 8 ∧ (5#16).toNat % 8 ≤ 5) := by decide

/-- A descriptor with a starfield plane; on a machine without one the clause on `STAR` says nothing. -/
theorem test_hyp_WrittenByteReadsBack_star :
    0 < starSize { cfgT with variant := .v3, starBits := 10 } ∧
    (0x405#16).toNat % starSize { cfgT with variant := .v3, starBits := 10 } =
      (5#16).toNat % starSize { cfgT with variant := .v3, starBits := 10 } := by
  decide

theorem test_hyp_ControlVoltageEdgeCases :
    (0 : ℝ) ≤ 1000 ∧ 0xF1#8 ≤ 0xFF#8 ∧ 5 < 2200 * outCurrent 0xF1#8 1000 + refVoltage 1000 := by
  refine ⟨by norm_num, by decide, ?_⟩
  norm_num [outCurrent, refCurrent, refVoltage]

/-- A curve that differs from the fixture's above 5 V only. -/
noncomputable def curveAbove (cv C : ℝ) : ℝ := if cv ≤ 5 then cfgT.fvco cv C else 7

theorem test_hyp_ControlVoltageEdgeCases_curve :
    (∀ cv, 0 ≤ cv → cv ≤ 5 → curveAbove cv cfgT.cext = cfgT.fvco cv cfgT.cext) ∧ curveAbove 6 1 ≠ cfgT.fvco 6 1 :=
  ⟨fun _ _ h => if_pos h, by norm_num [curveAbove, cfgT, cfgT0]⟩

theorem test_hyp_ControlVoltageNonDecreasing : (0 : ℝ) ≤ 0 ∧ 0x00#8 ≤ 0xFF#8 := ⟨le_refl 0, by decide⟩

theorem test_hyp_StepRateNonDecreasing :
    cfgT.WF ∧ (∀ x y : ℝ, 0 ≤ x → x ≤ y → y ≤ 5 → cfgT.fvco x cfgT.cext ≤ cfgT.fvco y cfgT.cext) ∧
    (0 : ℝ) ≤ 1000 ∧ 0x40#8 ≤ 0x80#8 := by
  refine ⟨test_wf_fixture, fun x y _ hxy _ => ?_, by norm_num, by decide⟩
  show 2000000 * x ≤ 2000000 * y
  linarith

theorem test_hyp_ActivityPredicate : cfgT.slXor = 0xFF#8 ∧ { cfgT with slXor := 0x00#8 }.slXor = 0x00#8 := ⟨rfl, rfl⟩

/-- No slot is active on line 0: there is no carry out of the low adder, whatever the descriptor. -/
theorem test_hyp_LineLeavesAlone (s : State) (i : Fin 16) : writesBack Config.cfg (lineStart 0 s) i = false := by
  have h := (lowAddend Config.cfg (slotField Config.cfg (lineStart 0 s) i 0)).isLt
  unfold writesBack activeSlot slotActive
  rw [clo_eq, show (lineStart 0 s).v = 0#8 from rfl, decide_eq_false (by simpa using h), Bool.false_and, Bool.false_and]

theorem test_hyp_LineWritesBackOffsets : (5 % 8 < 6 ∨ 128 ≤ 5) ∧ (126 % 8 < 6 ∨ 128 ≤ 126 → False) ∧ (134 % 8 < 6 ∨ 128 ≤ 134) := by
  decide

/-- Level 0 is live in every variant, level 3 where the road has been left. -/
theorem test_hyp_FetchAdvancesLiveLevels :
    (liveSet Config.cfg drawing).getLsbD (0 : Fin 8).val = true ∧ (liveSet Config.cfg drawing).getLsbD (3 : Fin 8).val = true := by
  constructor <;> rw [liveSet_bit] <;> simp [drawing]

theorem test_hyp_FetchSkipsDeadLevels : (liveSet Config.cfg drawing).getLsbD (1 : Fin 8).val = false := by
  rw [liveSet_bit]
  simp [drawing]

theorem fresh_levels (l : Fin 8) : drawing.level l = Level.fresh ∧ issued.level l = Level.fresh := by
  revert l
  decide +kernel

theorem fresh_frac_lt (c : Cfg) : Level.fresh.frac < fracOne c := by
  unfold fracOne
  cases c.variant <;> decide

theorem test_hyp_CompositeWordLanes : LevelForm Config.cfg drawing where
  frac_lt l := by
    rw [(fresh_levels l).1]
    exact fresh_frac_lt _
  lane l := by
    rw [(fresh_levels l).1]
    exact BitVec.zero_and

/-- Fixture T with level 0 one nibble before the end nibble of its stream (program P3, device pixel 31). -/
noncomputable def endingT : State :=
  withLevel cfgT 0 1 { lat := 0x01010101, endFlag := false, foff := 0x2016, frac := 0x00BC8EA2, step := 0x009CC726 }

theorem test_hyp_EndOfStream :
    LevelForm cfgT endingT ∧ (liveSet cfgT endingT).getLsbD (0 : Fin 8).val = true ∧
    endsWithin cfgT 0 (endingT.level 0) (nibblesDue cfgT (endingT.level 0)) = true :=
  ⟨⟨by decide +kernel, by decide +kernel⟩, by decide +kernel, by decide +kernel⟩

theorem test_hyp_Pix : drawing.busy = true ∧ State.reset.busy = false := ⟨rfl, rfl⟩

theorem test_hyp_PixWritesItsPartOfTheRow :
    0 < Config.cfg.hscale ∧ 0 < drawing.h.toNat * Config.cfg.hscale ∧
    (drawing.h.toNat + 1) * Config.cfg.hscale ≤ 256 * Config.cfg.hscale := by
  have := Config.cfg_wf.hscale_pos
  have h : drawing.h.toNat = 255 := rfl
  rw [h]
  omega

theorem test_hyp_BusyForTwoHundredFiftySixPixels : 0 ≤ 256 ∧ 255 ≤ 256 ∧ 256 ≤ 256 := by decide

theorem test_hyp_ScanWritesTheWholeRow : 255 < 256 ∧ 0 < Config.cfg.hscale := ⟨by decide, Config.cfg_wf.hscale_pos⟩

theorem test_hyp_RowDependsOnInputsOnly :
    State.reset ≠ { State.reset with coll := 5 } ∧ State.reset.slot = { State.reset with coll := 5 }.slot ∧
    State.reset.hen = { State.reset with coll := 5 }.hen ∧ State.reset.star = { State.reset with coll := 5 }.star ∧
    State.reset.latch = { State.reset with coll := 5 }.latch ∧ State.reset.scans = { State.reset with coll := 5 }.scans ∧
    State.reset.draws = { State.reset with coll := 5 }.draws := by
  refine ⟨fun h => ?_, rfl, rfl, rfl, rfl, rfl, rfl⟩
  exact absurd (congrArg State.coll h) (by decide)

theorem test_hyp_EveryOperationCompletes : Duty drawing .pix ∧ Duty State.reset (.hwr 0 6 1) ∧ Duty drawing .fetch :=
  ⟨rfl, rfl, trivial⟩

theorem test_hyp_OnlyLinePixRstMoveTheScan :
    (∃ t, exec .fetch drawing = .next t) ∧ (∀ v, Instr.fetch ≠ .line v) ∧ (∀ code, Instr.fetch ≠ .osc code) ∧
    Instr.fetch ≠ .pix ∧ Instr.fetch ≠ .rst :=
  ⟨⟨_, rfl⟩, by decide, by decide, by decide, by decide⟩

theorem test_hyp_CollisionFlagsAccumulate : (∃ t, exec .pix drawing = .next t) ∧ Instr.pix ≠ .rst ∧ Instr.pix ≠ .cclr :=
  ⟨⟨_, rfl⟩, by decide, by decide⟩

theorem test_hyp_RoadFlagIsSticky :
    (∃ t, exec .pix drawing = .next t) ∧ drawing.roadLeft = true ∧ (∀ v, Instr.pix ≠ .line v) ∧ Instr.pix ≠ .rst ∧
    (∃ t, exec .fetch State.reset = .next t) ∧ State.reset.roadLeft = false ∧ Instr.fetch ≠ .pix :=
  ⟨⟨_, rfl⟩, rfl, by decide, by decide, ⟨_, rfl⟩, rfl, by decide⟩

theorem test_hyp_ScanDriverWritesOnlyOffsets :
    mayIssue .scanDriver .pix = true ∧ (∃ t, exec .pix drawing = .next t) ∧ mayIssue .scanDriver (.line 7) = true ∧
    (∃ t, exec (.line 7) drawing = .next t) := ⟨rfl, ⟨_, rfl⟩, rfl, ⟨_, rfl⟩⟩

theorem test_hyp_HostLeavesThePipelineAlone :
    mayIssue .host (.hwr 0 6 1) = true ∧ Instr.hwr 0 6 1 ≠ .rst ∧ ∃ t, exec (.hwr 0 6 1) drawing = .next t :=
  ⟨rfl, by decide, ⟨_, rfl⟩⟩

theorem test_hyp_FrameScansEachLineOnce : 0#8 ≤ 255#8 ∧ 7#8 ≤ 7#8 := by decide

theorem test_hyp_OffsetStepsAndAlternates :
    (0x7FFF#16).toNat + 1 ≤ 0x8000 ∧ 0x8000 ≤ (0x8000#16).toNat ∧ 0x7FFF + 1 ≤ (0x8000#16).toNat := by decide

/-- A state that is not the reset state, meets every invariant and has a next state. -/
theorem test_hyp_StepKeepsTheInvariants :
    MemoryForm Config.cfg issued ∧ LevelForm Config.cfg issued ∧ LiveHasSlot issued ∧ ScanForm issued ∧
    VariantForm Config.cfg issued ∧ ∃ t, step issued = .next t := by
  refine ⟨⟨rfl, rfl, rfl, rfl, fun x => Config.cfg_wf.fb_lt x⟩, ⟨fun l => ?_, fun l => ?_⟩, fun l (h : (0#8).getLsbD l.val = true) => ?_, fun _ => rfl,
    ⟨fun _ => rfl, fun _ => rfl, fun _ => rfl, fun _ l => ?_⟩, _, rfl⟩
  · rw [(fresh_levels l).2]
    exact fresh_frac_lt _
  · rw [(fresh_levels l).2]
    exact BitVec.zero_and
  · simp at h
  · rw [(fresh_levels l).2]
    rfl

end Sys2Proof.Tests
end

section
/-!
PROOF. The step rate fits its 32-bit word (40_oscillator.md rule R76, last paragraph): cutting the raw step to a word loses
nothing, because rule R6 bounds the frequency (`rawStep_bound`).
-/

namespace Sys2Proof.Proofs
open Sys2Proof.Machine

/-- An integer in the unsigned range of a word survives the cut to that width. -/
theorem toNat_ofInt_of_bounds {w : Nat} {n : Int} (h0 : 0 ≤ n) (h1 : n < 2 ^ w) : ((BitVec.ofInt w n).toNat : Int) = n := by
  have hmod : n % (2 ^ w : Nat) = n := Int.emod_eq_of_lt h0 (by exact_mod_cast h1)
  rw [BitVec.toNat_ofInt, hmod, Int.toNat_of_nonneg h0]

/-- Settles O16: rule R6 puts the raw step between 0 and 2^32, where the cut to 32 bits is the identity. -/
theorem stepRateNeedsNoReduction : Obligations.StepRateNeedsNoReduction := by
  intro c hc code r
  obtain ⟨h0, h1⟩ := rawStep_bound hc code r
  exact toNat_ofInt_of_bounds h0 h1

end Sys2Proof.Proofs
end

section
/-!
PROOF. What an operation that goes on has done, said once for all operations (`Effect`), and what `LINE` and reset leave in the
state. The statements about the whole machine below are case analyses of `Effect`, with the frame of each operation.
-/

namespace Sys2Proof.Proofs
open Sys2Proof.Machine

/-- `NOP` and the reserved codes (rules R65, R154). -/
def isNop : Instr → Bool
  | .nop | .rsv9 | .rsvA | .rsvB | .rsvC | .rsvD | .rsvE | .rsvF => true
  | .rst | .cclr | .osc _ | .line _ | .fetch | .pix | .hwr _ _ _ | .hrd _ _ => false

/-- `Effect i s t`: operation `i` goes on from `s` and leaves `t` (rules R80, R84, R96, R111, R150 to R154). -/
inductive Effect : Instr → State → State → Prop
  | nop {i : Instr} {s : State} (h : isNop i = true) : Effect i s s
  | rst {s : State} : Effect .rst s (resetRegisters s)
  | cclr {s : State} : Effect .cclr s { s with coll := 0#8 }
  | osc {s : State} (code : Byte) : Effect (.osc code) s (oscillate Config.cfg code s)
  | line {s : State} (v : Byte) : Effect (.line v) s (prepareLine Config.cfg v s)
  | fetch {s : State} : Effect .fetch s (fetchAll Config.cfg s)
  | pix {s : State} (h : s.busy = true) : Effect .pix s (producePixel Config.cfg s)
  | hwr {s : State} (sel : BitVec 4) (addr : Half) (data : Byte) :
      Effect (.hwr sel addr data) s (writeSel Config.cfg sel addr data s)
  | hrd {s : State} (sel : BitVec 4) (addr : Half) :
      Effect (.hrd sel addr) s { s with hdq := readSel Config.cfg sel addr s }

/-- `exec` goes on exactly with the effect of its operation. -/
theorem exec_next_iff {i : Instr} {s t : State} : exec i s = .next t ↔ Effect i s t := by
  constructor
  · intro h
    cases i with
    | pix =>
      obtain ⟨hbusy, rfl⟩ := exec_pix_next.mp h
      exact .pix hbusy
    | rst | cclr | osc | line | fetch | hwr | hrd =>
      cases h
      constructor
    | nop | rsv9 | rsvA | rsvB | rsvC | rsvD | rsvE | rsvF =>
      cases h
      exact .nop rfl
  · intro h
    cases h with
    | pix hbusy => exact exec_pix_next.mpr ⟨hbusy, rfl⟩
    | nop hnop => cases i <;> cases hnop <;> rfl
    | rst | cclr | osc | line | fetch | hwr | hrd => rfl

/-- Everything `LINE v` can change (rule R84). -/
theorem prepareLine_frame (c : Cfg) (v : Byte) (s : State) :
    prepareLine c v s =
      { s with
        slot := (prepareLine c v s).slot
        v := v
        h := 0#8
        busy := true
        ve := (prepareLine c v s).ve
        lst := 0#8
        roadLeft := false
        levels := (prepareLine c v s).levels
        scans := s.scans + 1
        draws := (prepareLine c v s).draws } := by
  rw [(prepareLine_law c v s).frame]
  rfl

/-- The road flag never falls in the area step (rule R114). -/
theorem roadAfter_of_set (c : Cfg) (area : BitVec 5) (lt : Latches) : roadAfter c true area lt = true := by
  simp [roadAfter]

/-- Outside V1 the area step leaves the road flag alone (rule R114). -/
theorem roadAfter_of_noArea {c : Cfg} (h : hasArea c = false) (road : Bool) (area : BitVec 5) (lt : Latches) :
    roadAfter c road area lt = road := by
  simp [roadAfter, h]

/-- The level registers after reset. -/
@[simp] theorem level_reset (l : Fin 8) : State.reset.level l = Level.fresh := by
  simp [State.level, State.reset, State.resetWith]

/-- The level registers after `RST`. -/
@[simp] theorem level_resetRegisters (s : State) (l : Fin 8) : (resetRegisters s).level l = Level.fresh :=
  level_freshWorkingSet _ l

end Sys2Proof.Proofs
end

section
/-!
PROOF. Every step keeps every memory canonical and inside its size, and the row legal (20_memory.md rules R40 to R48,
10_state.md rule R21). Only `LINE`, `HWR` and `PIX` write a memory.
-/

namespace Sys2Proof.Proofs
open Sys2Proof.Machine

/-- The memory form speaks of the four memories only. -/
theorem memoryForm_congr {c : Cfg} {s t : State} (hs : MemoryForm c s) (hslot : t.slot = s.slot) (hhen : t.hen = s.hen)
    (hstar : t.star = s.star) (hfb : t.fb = s.fb) : MemoryForm c t where
  slot := hslot ▸ hs.slot
  hen := hhen ▸ hs.hen
  star := hstar ▸ hs.star
  fb := hfb ▸ hs.fb
  colours x := fbEntry_congr hfb x ▸ hs.colours x

/-- A host write keeps the memory form: its address is reduced to the size of its space (rule R40). -/
theorem hostWrite_memoryForm {c : Cfg} {s : State} (hs : MemoryForm c s) (sp : Space) (addr : Half) (data : Byte) :
    MemoryForm c (hostWrite c s sp addr data) := by
  cases sp with
  | slot => exact { hs with slot := memWf_write _ _ (Nat.mod_lt _ (by decide : 0 < 128)) hs.slot }
  | hen => exact { hs with hen := memWf_write _ _ (Nat.mod_lt _ (by decide : 0 < 512)) hs.hen }
  | latch => exact memoryForm_congr hs rfl rfl rfl rfl
  | star =>
    show MemoryForm c (if 0 < starSize c then setStarByte c s (hostAddr c .star addr) data else s)
    split
    · next hsize => exact { hs with star := memWf_write _ _ (Nat.mod_lt _ hsize) hs.star }
    · exact hs
  | coll => exact hs

theorem writeSel_memoryForm {c : Cfg} {s : State} (hs : MemoryForm c s) (sel : BitVec 4) (addr : Half) (data : Byte) :
    MemoryForm c (writeSel c sel addr data s) := by
  unfold writeSel
  split
  · exact hostWrite_memoryForm hs _ addr data
  · exact hs

/-- `LINE` writes bytes of slots only. -/
theorem prepareLine_memoryForm {c : Cfg} {s : State} (hs : MemoryForm c s) (v : Byte) :
    MemoryForm c (prepareLine c v s) := by
  have hslot := prepareLine_wf c v s hs.slot
  rw [prepareLine_frame]
  exact { hs with slot := hslot }

/-- `PIX` writes entries of the row only, each of them a colour index. -/
theorem producePixel_memoryForm {c : Cfg} (hc : c.WF) {s : State} (hs : MemoryForm c s) :
    MemoryForm c (producePixel c s) := by
  have hfb : memWf c.powerOn.fb (hpix * c.hscale) (producePixel c s).fb = true :=
    evaluations_fb_wf hc (boardPixel c (latched c s)) (latched c s) hs.fb c.subpix (Nat.le_refl _)
  have hcolours := producePixel_colour_lt hc s hs.colours
  rw [producePixel_frame] at hcolours ⊢
  exact { hs with fb := hfb, colours := hcolours }

theorem exec_keeps_memoryForm (i : Instr) (s t : State) (hs : MemoryForm Config.cfg s) (h : exec i s = .next t) :
    MemoryForm Config.cfg t := by
  cases exec_next_iff.mp h with
  | line v => exact prepareLine_memoryForm hs v
  | pix => exact producePixel_memoryForm Config.cfg_wf hs
  | hwr sel addr data => exact writeSel_memoryForm hs sel addr data
  | fetch =>
    rw [fetchAll_frame]
    exact memoryForm_congr hs rfl rfl rfl rfl
  | nop | rst | cclr | osc | hrd => exact memoryForm_congr hs rfl rfl rfl rfl

/-- Settles O56: no operation leaves the memory form. -/
theorem stepKeepsMemoryForm : Obligations.StepKeepsMemoryForm := fun s t =>
  step_keeps (fun _ _ hs => memoryForm_congr hs rfl rfl rfl rfl) exec_keeps_memoryForm s t

end Sys2Proof.Proofs
end

section
/-!
PROOF. Every step keeps every level's position below 1.0 and its latched word in its lane (42_bit_fetcher.md rule R106,
10_state.md rule R16), and keeps the registers that a variant does not use at 0 (rules R15, R17, R19, R103, R104). Both are facts
about single levels that the catch-up loop keeps, so one argument carries them through any number of fetches
(`fetches_level_all`).
-/

namespace Sys2Proof.Proofs
open Sys2Proof.Machine

/-- The levels after `PIX` are those of its fetches. -/
theorem producePixel_level (c : Cfg) (s : State) (l : Fin 8) :
    (producePixel c s).level l = (fetches c c.subpix (latched c s)).level l := by
  rw [producePixel_frame]
  rfl

/-- A property of initial registers holds of every level after `LINE` (rules R84 step 2, R90). -/
theorem prepareLine_level_all (c : Cfg) {P : Level → Prop} (hP : ∀ off step, P (initialLevel off step)) (v : Byte) (s : State)
    (l : Fin 8) : P ((prepareLine c v s).level l) := by
  rw [prepareLine_level]
  cases winner c (lineStart v s) l with
  | none => exact hP 0#16 0#32
  | some i => exact hP _ _

/-! ### The level form -/

/-- An expanded nibble shifted by its level has all its bits in that level's lane (rule R98). -/
theorem expand_lane (l : Fin 8) (n : BitVec 4) : (expand n <<< l.val) &&& ~~~laneMask l = 0#32 := by
  revert l n
  decide +kernel

/-- The registers of one level as `LevelForm` asks for them. -/
structure LevelOk (c : Cfg) (l : Fin 8) (lv : Level) : Prop where
  frac_lt : lv.frac < fracOne c
  lane : lv.lat &&& ~~~laneMask l = 0#32

theorem levelForm_iff {c : Cfg} {s : State} : LevelForm c s ↔ ∀ l, LevelOk c l (s.level l) :=
  ⟨fun h l => ⟨h.frac_lt l, h.lane l⟩, fun h => ⟨fun l => (h l).frac_lt, fun l => (h l).lane⟩⟩

theorem initialLevel_levelOk (c : Cfg) (l : Fin 8) (off : Half) (step : Word) : LevelOk c l (initialLevel off step) :=
  ⟨BitVec.lt_def.mpr (fracOne_pos c), BitVec.zero_and⟩

/-- The loop ends below 1.0, and what it latches is an expanded nibble in the level's lane (rules R98, R106). -/
theorem advanceLevel_levelOk (c : Cfg) (l : Fin 8) (lv : Level) (h : LevelOk c l lv) :
    LevelOk c l (advanceLevel c l lv).1 where
  frac_lt := advanceLevel_frac_lt c l lv
  lane := by
    rw [advanceLevel_eq]
    cases nibblesDue c lv with
    | zero => exact h.lane
    | succ n => exact expand_lane l _

theorem exec_keeps_levelForm (i : Instr) (s t : State) (hs : LevelForm Config.cfg s) (h : exec i s = .next t) :
    LevelForm Config.cfg t := by
  rw [levelForm_iff] at hs ⊢
  intro l
  cases exec_next_iff.mp h with
  | line v => exact prepareLine_level_all _ (initialLevel_levelOk _ l) v s l
  | fetch => exact fetches_level_all _ (advanceLevel_levelOk _) 1 hs l
  | pix =>
    rw [producePixel_level]
    exact fetches_level_all _ (advanceLevel_levelOk _) _ (s := latched _ s) hs l
  | rst =>
    rw [level_resetRegisters]
    exact initialLevel_levelOk _ l 0#16 0#32
  | hwr sel addr data =>
    rw [writeSel_frame]
    exact hs l
  | nop | cclr | osc | hrd => exact hs l

/-- Settles O57: no operation leaves the level form. -/
theorem stepKeepsLevelForm : Obligations.StepKeepsLevelForm := fun s t =>
  step_keeps (fun _ _ hs => ⟨hs.frac_lt, hs.lane⟩) exec_keeps_levelForm s t

/-! ### The variant form -/

/-- In V1 no nibble sets the boundary flag (rule R103). -/
theorem classify_boundary_of_noWord {c : Cfg} (h : hasBoundaryWord c = false) (n : BitVec 4) :
    (classify c n).boundary = false := by
  have hv : c.variant = .v1 := by simpa [hasBoundaryWord] using h
  simp [classify, hv]

/-- In V1 a clear boundary flag stays clear (rules R103, R104). -/
theorem advanceLevel_endFlag {c : Cfg} (h : hasBoundaryWord c = false) (l : Fin 8) (lv : Level) (hlv : lv.endFlag = false) :
    (advanceLevel c l lv).1.endFlag = false := by
  rw [advanceLevel_eq]
  cases nibblesDue c lv with
  | zero => exact hlv
  | succ n => exact classify_boundary_of_noWord h _

/-- In V1 fetches return no boundary word (rule R96 step 4). -/
theorem fetches_plbq {c : Cfg} (h : hasBoundaryWord c = false) (n : Nat) {s : State} (hs : s.plbq = 0#8) :
    (fetches c n s).plbq = 0#8 := by
  cases n with
  | zero => exact hs
  | succ n => simp [fetches, boundaryWord, h]

theorem fetchAll_variantForm {c : Cfg} {s : State} (hs : VariantForm c s) : VariantForm c (fetchAll c s) where
  road h := by rw [fetchAll_frame]; exact hs.road h
  coll h := by rw [fetchAll_frame]; exact hs.coll h
  plbq h := fetches_plbq h 1 (hs.plbq h)
  endFlag h := fetches_level_all c (P := fun _ lv => lv.endFlag = false) (advanceLevel_endFlag h) 1 (hs.endFlag h)

theorem producePixel_variantForm {c : Cfg} {s : State} (hs : VariantForm c s) : VariantForm c (producePixel c s) where
  road h := by
    rw [producePixel_frame]
    exact (roadAfter_of_noArea h _ _ _).trans (hs.road h)
  coll h := by simpa [producePixel_coll, h] using hs.coll h
  plbq h := by
    rw [producePixel_frame]
    exact fetches_plbq h _ (s := latched c s) (hs.plbq h)
  endFlag h l := by
    rw [producePixel_level]
    exact fetches_level_all c (P := fun _ lv => lv.endFlag = false) (advanceLevel_endFlag h) _ (s := latched c s)
      (hs.endFlag h) l

theorem prepareLine_variantForm {c : Cfg} {s : State} (hs : VariantForm c s) (v : Byte) :
    VariantForm c (prepareLine c v s) where
  road _ := by rw [prepareLine_frame]
  coll h := by rw [prepareLine_frame]; exact hs.coll h
  plbq h := by rw [prepareLine_frame]; exact hs.plbq h
  endFlag _ := prepareLine_level_all c (P := fun lv => lv.endFlag = false) (fun _ _ => rfl) v s

theorem resetRegisters_variantForm (c : Cfg) (s : State) : VariantForm c (resetRegisters s) where
  road _ := rfl
  coll _ := rfl
  plbq _ := rfl
  endFlag _ l := by rw [level_resetRegisters]; rfl

theorem exec_keeps_variantForm (i : Instr) (s t : State) (hs : VariantForm Config.cfg s) (h : exec i s = .next t) :
    VariantForm Config.cfg t := by
  cases exec_next_iff.mp h with
  | line v => exact prepareLine_variantForm hs v
  | fetch => exact fetchAll_variantForm hs
  | pix => exact producePixel_variantForm hs
  | rst => exact resetRegisters_variantForm _ s
  | cclr => exact { hs with coll := fun _ => rfl }
  | hwr sel addr data =>
    rw [writeSel_frame]
    exact { hs with }
  | nop => exact hs
  | osc | hrd => exact { hs with }

/-- Settles O60: no operation leaves the variant form. -/
theorem stepKeepsVariantForm : Obligations.StepKeepsVariantForm := fun s t =>
  step_keeps (fun _ _ hs => { hs with }) exec_keeps_variantForm s t

end Sys2Proof.Proofs
end

section
/-!
PROOF. What no operation of the whole machine does (10_state.md rules R12, R15, R19, R25): each statement is the case analysis of
`Effect` with the frame of the operation.
-/

namespace Sys2Proof.Proofs
open Sys2Proof.Machine

/-! ### The scan position -/

/-- Settles O48: the frames of `FETCH` and `HWR` leave the scan position and the model's counts out, that of `PIX` the counts. -/
theorem onlyLinePixRstMoveTheScan : Obligations.OnlyLinePixRstMoveTheScan := by
  intro i s t h
  cases exec_next_iff.mp h with
  | line v =>
    rw [prepareLine_frame]
    exact ⟨rfl, fun hi => absurd rfl (hi v)⟩
  | osc code => exact ⟨rfl, fun _ => ⟨rfl, fun hi => absurd rfl (hi code), fun _ _ => ⟨rfl, rfl, rfl⟩⟩⟩
  | pix =>
    rw [producePixel_frame]
    exact ⟨rfl, fun _ => ⟨rfl, fun _ => rfl, fun hi => absurd rfl hi⟩⟩
  | rst => exact ⟨rfl, fun _ => ⟨rfl, fun _ => rfl, fun _ hi => absurd rfl hi⟩⟩
  | fetch =>
    rw [fetchAll_frame]
    exact ⟨rfl, fun _ => ⟨rfl, fun _ => rfl, fun _ _ => ⟨rfl, rfl, rfl⟩⟩⟩
  | hwr sel addr data =>
    rw [writeSel_frame]
    exact ⟨rfl, fun _ => ⟨rfl, fun _ => rfl, fun _ _ => ⟨rfl, rfl, rfl⟩⟩⟩
  | nop | cclr | hrd => exact ⟨rfl, fun _ => ⟨rfl, fun _ => rfl, fun _ _ => ⟨rfl, rfl, rfl⟩⟩⟩

/-- `BUSY` falls only on the advance of `H` to 0 (rule R122). -/
theorem busyAfter_eq_false {busy : Bool} {h' : Byte} (hbusy : busy = true) (h : busyAfter busy h' = false) : h' = 0#8 := by
  unfold busyAfter at h
  split at h
  · assumption
  · exact absurd hbusy (by simp [h])

theorem exec_keeps_scanForm (i : Instr) (s t : State) (hs : ScanForm s) (h : exec i s = .next t) : ScanForm t := by
  cases exec_next_iff.mp h with
  | pix hbusy =>
    rw [producePixel_frame]
    exact busyAfter_eq_false hbusy
  | line v =>
    rw [prepareLine_frame]
    exact fun _ => rfl
  | rst => exact fun _ => rfl
  | fetch =>
    rw [fetchAll_frame]
    exact hs
  | hwr sel addr data =>
    rw [writeSel_frame]
    exact hs
  | nop | cclr | osc | hrd => exact hs

/-- Settles O59: `PIX` lets `BUSY` fall with `H` at 0, `LINE` raises it, `RST` clears both. -/
theorem stepKeepsScanForm : Obligations.StepKeepsScanForm := fun s t =>
  step_keeps (fun _ _ hs => hs) exec_keeps_scanForm s t

/-! ### The sticky flags -/

/-- A value stays inside its union with another. -/
theorem and_or_absorb {n : Nat} (x y : BitVec n) : x &&& (x ||| y) = x := by
  refine BitVec.eq_of_getLsbD_eq fun i _ => ?_
  rw [BitVec.getLsbD_and, BitVec.getLsbD_or]
  cases x.getLsbD i <;> rfl

/-- Settles O49: `PIX` ORs collision bits into `COLL`, every other operation but `RST` and `CCLR` leaves it alone. -/
theorem collisionFlagsAccumulate : Obligations.CollisionFlagsAccumulate := by
  intro i s t h hrst hcclr
  cases exec_next_iff.mp h with
  | pix =>
    rw [producePixel_coll]
    split
    · exact and_or_absorb _ _
    · exact BitVec.and_self
  | rst => exact absurd rfl hrst
  | cclr => exact absurd rfl hcclr
  | line v =>
    rw [prepareLine_frame]
    exact BitVec.and_self
  | fetch =>
    rw [fetchAll_frame]
    exact BitVec.and_self
  | hwr sel addr data =>
    rw [writeSel_frame]
    exact BitVec.and_self
  | nop | osc | hrd => exact BitVec.and_self

/-- Settles O50: the area step of `PIX` only raises the flag, `LINE` and `RST` clear it, the others leave it alone. -/
theorem roadFlagIsSticky : Obligations.RoadFlagIsSticky := by
  intro i s t h
  cases exec_next_iff.mp h with
  | pix =>
    rw [producePixel_frame]
    refine ⟨fun hroad _ _ => ?_, fun _ hi => absurd rfl hi⟩
    show roadAfter _ s.roadLeft _ _ = true
    rw [hroad]
    exact roadAfter_of_set _ _ _
  | line v =>
    rw [prepareLine_frame]
    exact ⟨fun _ hi => absurd rfl (hi v), fun _ _ => rfl⟩
  | rst => exact ⟨fun _ _ hi => absurd rfl hi, fun _ _ => rfl⟩
  | fetch =>
    rw [fetchAll_frame]
    exact ⟨fun hroad _ _ => hroad, fun hroad _ => hroad⟩
  | hwr sel addr data =>
    rw [writeSel_frame]
    exact ⟨fun hroad _ _ => hroad, fun hroad _ => hroad⟩
  | nop | cclr | osc | hrd => exact ⟨fun hroad _ _ => hroad, fun hroad _ => hroad⟩

/-! ### What each agent leaves alone -/

/-- Settles O51: `LINE` writes bytes 6 and 7 of slots, `PIX` the row, and no other operation of the scan driver a memory. -/
theorem scanDriverWritesOnlyOffsets : Obligations.ScanDriverWritesOnlyOffsets := by
  intro i s t hagent h
  cases exec_next_iff.mp h with
  | line v =>
    have hslot a (ha : a % 8 < 6) := prepareLine_slotByte Config.cfg v s a (.inl ha)
    rw [prepareLine_frame] at hslot ⊢
    exact ⟨rfl, rfl, rfl, hslot, fun hi => absurd rfl (hi v), fun _ => rfl⟩
  | pix =>
    rw [producePixel_frame]
    exact ⟨rfl, rfl, rfl, fun _ _ => rfl, fun _ => rfl, fun hi => absurd rfl hi⟩
  | fetch =>
    rw [fetchAll_frame]
    exact ⟨rfl, rfl, rfl, fun _ _ => rfl, fun _ => rfl, fun _ => rfl⟩
  | nop | rst | osc => exact ⟨rfl, rfl, rfl, fun _ _ => rfl, fun _ => rfl, fun _ => rfl⟩
  | cclr | hwr | hrd => cases hagent

/-- Settles O52: the host's operations other than `RST` write host memory, `COLL` and `HDQ`. -/
theorem hostLeavesThePipelineAlone : Obligations.HostLeavesThePipelineAlone := by
  intro i s t hagent hrst h
  cases exec_next_iff.mp h with
  | hwr sel addr data =>
    rw [writeSel_frame]
    exact ⟨rfl, rfl, rfl, rfl, rfl, rfl, rfl, rfl, rfl, rfl, rfl⟩
  | nop | cclr | hrd => exact ⟨rfl, rfl, rfl, rfl, rfl, rfl, rfl, rfl, rfl, rfl, rfl⟩
  | rst => exact absurd rfl hrst
  | osc | line | fetch | pix => cases hagent

end Sys2Proof.Proofs
end

section
/-!
PROOF. One step, the state after reset, and that a byte the host wrote reads back (10_state.md rules R7, R24, 44_system_ops.md
rules R152, R153).
-/

namespace Sys2Proof.Proofs
open Sys2Proof.Machine

/-- Settles O6: `step` takes the oldest word, and an issued word of 32 bits is the oldest. -/
theorem stepRunsTheDecodedOperation : Obligations.StepRunsTheDecodedOperation := by
  refine ⟨fun s w ws h => ?_, fun s h => ?_, fun s w hw => ?_⟩
  · simp only [step, h]
  · simp only [step, h, idle]
  · simp only [step, State.withFetchWord, Nat.mod_eq_of_lt hw]

/-- Settles O54: the table of rule R24, register by register; an unlisted address reads as its free value. -/
theorem resetState : Obligations.ResetState :=
  ⟨rfl, rfl, rfl, rfl, rfl, rfl, rfl, level_reset, rfl, rfl, rfl, rfl, fun _ => rfl, fun _ => rfl, fun _ => rfl, rfl,
    fun _ => rfl, rfl, rfl, rfl⟩

/-- Settles O55: after reset the memories list nothing, every level is fresh and no level is live. -/
theorem resetMeetsTheInvariants : Obligations.ResetMeetsTheInvariants := by
  refine ⟨⟨rfl, rfl, rfl, rfl, Config.cfg_wf.fb_lt⟩, levelForm_iff.mpr fun l => ?_, fun l hlive => ?_, fun _ => rfl,
    ⟨fun _ => rfl, fun _ => rfl, fun _ => rfl, fun _ l => ?_⟩⟩
  · rw [level_reset]
    exact initialLevel_levelOk _ l 0#16 0#32
  · exact absurd hlive (by simp : (0#8).getLsbD l.val ≠ true)
  · rw [level_reset]
    rfl

/-! ### The host's bytes -/

/-- A host read does not look at `HDQ` (rule R153). -/
theorem readSel_setHdq (c : Cfg) (sel : BitVec 4) (addr : Half) (s : State) (q : Byte) :
    readSel c sel addr { s with hdq := q } = readSel c sel addr s := by
  unfold readSel
  split
  · next sp _ => cases sp <;> rfl
  · rfl

/-- The accesses at which a byte written is the byte read: spaces that hold the byte, addresses that reduce to the same one. -/
def SameByte (c : Cfg) (sel : BitVec 4) (addr addr' : Half) : Prop :=
  (sel = 0#4 ∧ addr.toNat % 128 = addr'.toNat % 128) ∨ (sel = 1#4 ∧ addr.toNat % 512 = addr'.toNat % 512) ∨
    (sel = 2#4 ∧ addr.toNat % 8 = addr'.toNat % 8 ∧ addr.toNat % 8 ≤ 5) ∨
    (sel = 3#4 ∧ 0 < starSize c ∧ addr.toNat % starSize c = addr'.toNat % starSize c)

/-- Read after write in each space that holds the byte (rules R152, R153). -/
theorem readSel_writeSel_same {c : Cfg} {sel : BitVec 4} {addr addr' : Half} (h : SameByte c sel addr addr') (data : Byte)
    (s : State) : readSel c sel addr' (writeSel c sel addr data s) = data := by
  rcases h with ⟨rfl, heq⟩ | ⟨rfl, heq⟩ | ⟨rfl, heq, hle⟩ | ⟨rfl, hpos, heq⟩
  · exact (slotByte_setSlotByte c s _ _ data).trans (if_pos heq.symm)
  · exact (henByte_setHenByte c s _ _ data).trans (if_pos heq.symm)
  · exact (latchGet_latchSet s.latch _ _ data).trans (if_pos ⟨heq.symm, heq.symm.trans_le hle⟩)
  · have hread : readSel c 3#4 addr' (writeSel c 3#4 addr data s) =
        if 0 < starSize c then starByte c (if 0 < starSize c then setStarByte c s (addr.toNat % starSize c) data else s)
          (addr'.toNat % starSize c) else 0#8 := rfl
    rw [hread, if_pos hpos, if_pos hpos, starByte_setStarByte, if_pos heq.symm]

/-- Settles O14: the read gives the byte just written, and the same read again finds `HDQ` as it leaves it. -/
theorem writtenByteReadsBack : Obligations.WrittenByteReadsBack := by
  intro s sel addr addr' data h
  refine ⟨_, _, _, rfl, rfl, readSel_writeSel_same (c := Config.cfg) h data s, rfl, ?_⟩
  rw [readSel_setHdq]
  rfl

end Sys2Proof.Proofs
end

section
/-!
PROOF. A scanline: `BUSY` from `LINE` to the 256th `PIX` (10_state.md rule R12), and that the row depends on the host's memories
and the inputs only (rules R23, R124). Two runs from states that agree on what a picture is made of (`SamePicture`) keep that
agreement pixel by pixel, and each pixel's part of the row with it.
-/

namespace Sys2Proof.Proofs
open Sys2Proof.Machine

/-! ### Repeated pixels -/

/-- The state after `n` board pixels. -/
def pixels (c : Cfg) : Nat → State → State
  | 0, s => s
  | n + 1, s => producePixel c (pixels c n s)

/-- The scan position after `n` board pixels of a scanline (rule R122). -/
structure AtPixel (v : Byte) (n : Nat) (s : State) : Prop where
  v : s.v = v
  h : s.h.toNat = n % 256
  busy : s.busy = decide (n < 256)

theorem prepareLine_atPixel (c : Cfg) (v : Byte) (s : State) : AtPixel v 0 (prepareLine c v s) := by
  rw [prepareLine_frame]
  exact ⟨rfl, rfl, rfl⟩

/-- A board pixel advances `H`, and `BUSY` falls exactly when `H` comes round to 0 (rule R122). -/
theorem producePixel_atPixel {c : Cfg} {v : Byte} {n : Nat} {s : State} (hs : AtPixel v n s) (hn : n < 256) :
    AtPixel v (n + 1) (producePixel c s) := by
  have hh : (s.h + 1#8).toNat = (n + 1) % 256 := by
    rw [BitVec.toNat_add, hs.h]
    exact Nat.mod_add_mod n 256 1
  rw [producePixel_frame]
  refine ⟨hs.v, hh, ?_⟩
  show busyAfter s.busy (s.h + 1#8) = _
  have hzero : s.h + 1#8 = 0#8 ↔ ¬ n + 1 < 256 := by
    rw [← BitVec.toNat_inj, hh, BitVec.toNat_zero]
    omega
  by_cases hlast : n + 1 < 256
  · rw [busyAfter, if_neg fun h => hzero.mp h hlast, hs.busy, decide_eq_true hn, decide_eq_true hlast]
  · rw [busyAfter, if_pos (hzero.mpr hlast), decide_eq_false hlast]

theorem pixels_atPixel {c : Cfg} {v : Byte} {s : State} (hs : AtPixel v 0 s) :
    ∀ n, n ≤ 256 → AtPixel v n (pixels c n s)
  | 0, _ => hs
  | n + 1, hn => producePixel_atPixel (pixels_atPixel hs n (by omega)) hn

/-- After `LINE` each of 256 `PIX` goes on. -/
theorem execTimes_pix {v : Byte} {s : State} (hs : AtPixel v 0 s) :
    ∀ n, n ≤ 256 → execTimes .pix n s = .next (pixels Config.cfg n s)
  | 0, _ => rfl
  | n + 1, hn => by
    have hbusy : (pixels Config.cfg n s).busy = true := by
      rw [(pixels_atPixel hs n (by omega)).busy]
      exact decide_eq_true hn
    simp only [execTimes, execTimes_pix hs n (by omega)]
    exact exec_pix_next.mpr ⟨hbusy, rfl⟩

/-- Settles O44: every `PIX` up to the 256th finds `BUSY` at 1, and the scan position counts them. -/
theorem busyForTwoHundredFiftySixPixels : Obligations.BusyForTwoHundredFiftySixPixels := by
  intro s v n hn
  have hstart := prepareLine_atPixel Config.cfg v s
  have hat := pixels_atPixel (c := Config.cfg) hstart n hn
  exact ⟨_, _, rfl, execTimes_pix hstart n hn, hat.v, hat.h, by rw [hat.busy, decide_eq_true_iff]⟩

/-! ### Two runs with the same picture -/

/-- `s` with the fields that no picture is made of as `u` has them: `COLL`, the result latches, the row, the pending words. -/
def withUnread (s u : State) : State :=
  { s with coll := u.coll, oscq := u.oscq, sprq := u.sprq, plbq := u.plbq, hdq := u.hdq, fb := u.fb, pending := u.pending }

/-- `LINE` on a slot reads and writes none of the unread fields (rule R93). -/
theorem prepareSlot_withUnread (c : Cfg) (s u : State) (i : Fin 16) :
    prepareSlot c (withUnread s u) i = withUnread (prepareSlot c s i) u := by
  have hwb : ∀ s, writeBack c i (withUnread s u) = withUnread (writeBack c i s) u := fun s => by
    have hgate : slotGate c (withUnread s u) i = slotGate c s i := rfl
    unfold writeBack
    rw [hgate]
    split <;> rfl
  have hact : activeSlot c (withUnread s u) i = activeSlot c s i := rfl
  have hstep : activateSlot c (withUnread s u) i =
      initLevel c (levelOf i) (newOffset c s i) (slotField c s i 2)
        (writeBack c i (withUnread { s with ve := setSlotBit s.ve i } u)) := rfl
  unfold prepareSlot
  rw [hact]
  split
  · rw [hstep, hwb]
    rfl
  · rfl

/-- The scan of the slots commutes with a change of the unread fields. -/
theorem prepareSlots_withUnread (c : Cfg) (s u : State) (is : List (Fin 16)) :
    is.foldl (prepareSlot c) (withUnread s u) = withUnread (is.foldl (prepareSlot c) s) u :=
  List.foldl_hom (fun s => withUnread s u) fun s i => prepareSlot_withUnread c s u i

/-- `LINE` sets the scan position and the working set itself, so that the memories, the latches and the counts are all that two
states must share. -/
theorem lineStart_withUnread (v : Byte) {s s' : State} (hslot : s.slot = s'.slot) (hhen : s.hen = s'.hen)
    (hstar : s.star = s'.star) (hlatch : s.latch = s'.latch) (hscans : s.scans = s'.scans) (hdraws : s.draws = s'.draws) :
    lineStart v s' = withUnread (lineStart v s) s' := by
  simp only [lineStart, freshWorkingSet, startScan, withUnread, hslot, hhen, hstar, hlatch, hscans, hdraws]

theorem prepareLine_withUnread (c : Cfg) (v : Byte) {s s' : State} (h : lineStart v s' = withUnread (lineStart v s) s') :
    prepareLine c v s' = withUnread (prepareLine c v s) s' := by
  show allSlots.foldl (prepareSlot c) (lineStart v s') = _
  rw [h]
  exact prepareSlots_withUnread c _ _ _

/-! ### Board pixels of like pictures -/

/-- States that a fetch cannot tell apart stay so through any number of fetches. -/
theorem fetches_sameFetch {s t : State} (h : SameFetch s t) (c : Cfg) : ∀ n, SameFetch (fetches c n s) (fetches c n t)
  | 0 => h
  | n + 1 => (fetches_sameFetch h c n).fetch c

/-- No fetch of a board pixel tells the unread fields apart. -/
theorem latched_withUnread_sameFetch (c : Cfg) (s u : State) : SameFetch (latched c s) (latched c (withUnread s u)) :=
  ⟨rfl, rfl, rfl⟩

/-- A board pixel changes of two like pictures the same parts in the same way. -/
theorem producePixel_withUnread (c : Cfg) (s u : State) :
    producePixel c (withUnread s u) = withUnread (producePixel c s) (producePixel c (withUnread s u)) := by
  have hf := fetches_sameFetch (latched_withUnread_sameFetch c s u) c c.subpix
  rw [producePixel_frame c (withUnread s u), producePixel_frame c s, hf.lst, hf.levels]
  rfl

/-- The entries a board pixel writes come from the picture alone (rules R111, R124). -/
theorem producePixel_entry_withUnread (s u : State) {k : Nat} (hk : k < Config.cfg.hscale) :
    fbEntry Config.cfg (producePixel Config.cfg (withUnread s u)) (s.h.toNat * Config.cfg.hscale + k) =
      fbEntry Config.cfg (producePixel Config.cfg s) (s.h.toNat * Config.cfg.hscale + k) := by
  have hf := fetches_sameFetch (latched_withUnread_sameFetch Config.cfg s u) Config.cfg k
  have hrep : rep Config.cfg = 1 := rep_cfg
  have hentry : ∀ s : State, fbEntry Config.cfg (producePixel Config.cfg s) (s.h.toNat * Config.cfg.hscale + k) =
      pixelColor Config.cfg (boardPixel Config.cfg (latched Config.cfg s)) k
        (fetches Config.cfg (k + 1) (latched Config.cfg s)) := fun s => by
    have := producePixel_inside Config.cfg s k 0 (Config.cfg_subpix ▸ hk) (by omega)
    rwa [hrep, Nat.mul_one, Nat.add_zero] at this
  refine (hentry (withUnread s u)).trans (Eq.trans ?_ (hentry s).symm)
  refine pixelColor_congr _ _ k (hf.sprq _).symm (hf.plbq _).symm ?_ ?_ ?_ ?_
  all_goals
    rw [fetches_frame _ _ (latched _ s), fetches_frame _ _ (latched _ (withUnread s u))]
    rfl

/-- After `n` board pixels from the start of a scanline two like pictures are still alike, and so are their rows so far. -/
theorem pixels_withUnread {v : Byte} {s : State} (u : State) (hs : AtPixel v 0 s) :
    ∀ n, n ≤ 256 →
      (∃ w, pixels Config.cfg n (withUnread s u) = withUnread (pixels Config.cfg n s) w) ∧
      ∀ x, x < n * Config.cfg.hscale →
        fbEntry Config.cfg (pixels Config.cfg n s) x = fbEntry Config.cfg (pixels Config.cfg n (withUnread s u)) x
  | 0, _ => ⟨⟨u, rfl⟩, fun x hx => by omega⟩
  | n + 1, hn => by
    obtain ⟨⟨w, hw⟩, hrow⟩ := pixels_withUnread u hs n (by omega)
    have hh : (pixels Config.cfg n s).h.toNat = n := (pixels_atPixel hs n (by omega)).h.trans (Nat.mod_eq_of_lt hn)
    simp only [pixels, hw] at hrow ⊢
    generalize pixels Config.cfg n s = t at hh hrow
    refine ⟨⟨_, producePixel_withUnread _ t w⟩, fun x hx => ?_⟩
    rw [Nat.add_mul, Nat.one_mul] at hx
    rcases Nat.lt_or_ge x (n * Config.cfg.hscale) with hlt | hge
    · have hout : x < t.h.toNat * Config.cfg.hscale := by rwa [hh]
      rw [producePixel_outside _ t x (.inl hout), producePixel_outside _ (withUnread t w) x (.inl hout)]
      exact hrow x hlt
    · have hentry := producePixel_entry_withUnread t w (k := x - n * Config.cfg.hscale) (by omega)
      rw [hh, Nat.add_sub_cancel' hge] at hentry
      exact hentry.symm

/-- Settles O46: after `LINE` the two runs have like pictures, and 256 pixels write the whole row of each. -/
theorem rowDependsOnInputsOnly : Obligations.RowDependsOnInputsOnly := by
  intro s s' v hslot hhen hstar hlatch hscans hdraws
  have hline := prepareLine_withUnread Config.cfg v (lineStart_withUnread v hslot hhen hstar hlatch hscans hdraws)
  have hat := prepareLine_atPixel Config.cfg v s
  have hat' := prepareLine_atPixel Config.cfg v s'
  refine ⟨_, _, _, _, rfl, rfl, execTimes_pix hat 256 (Nat.le_refl _), execTimes_pix hat' 256 (Nat.le_refl _), ?_⟩
  rw [hline]
  exact (pixels_withUnread s' hat 256 (Nat.le_refl _)).2

end Sys2Proof.Proofs
end

section
/-!
PROOF. No pipeline operation reads a result latch (10_state.md rule R17): each operation commutes with any change of the four
latches, up to the latches it writes itself.
-/

namespace Sys2Proof.Proofs
open Sys2Proof.Machine

/-- `s` with the four result latches set. -/
def withResults (oscq sprq : Word) (plbq hdq : Byte) (s : State) : State :=
  { s with oscq := oscq, sprq := sprq, plbq := plbq, hdq := hdq }

/-- A fetch overwrites `SPRQ` and `PLBQ` with values it takes from the levels (rule R96). -/
theorem fetchAll_withResults (c : Cfg) (oscq sprq : Word) (plbq hdq : Byte) (s : State) :
    fetchAll c (withResults oscq sprq plbq hdq s) =
      withResults oscq (fetchAll c s).sprq (fetchAll c s).plbq hdq (fetchAll c s) := by
  have hsame : SameFetch s (withResults oscq sprq plbq hdq s) := ⟨rfl, rfl, rfl⟩
  have hf := hsame.fetch c
  rw [fetchAll_frame c (withResults oscq sprq plbq hdq s), ← hf.lst, ← hf.levels, ← hsame.sprq, ← hsame.plbq,
    fetchAll_frame c s]
  rfl

theorem fillFb_withResults (c : Cfg) (base idx n : Nat) (oscq sprq : Word) (plbq hdq : Byte) (s : State) :
    fillFb c base idx n (withResults oscq sprq plbq hdq s) = withResults oscq sprq plbq hdq (fillFb c base idx n s) := by
  induction n with
  | zero => rfl
  | succ n ih =>
    rw [fillFb, ih]
    rfl

/-- An evaluation reads `SPRQ` and `PLBQ` only as its own fetch returned them (rules R111 step 4, R117). -/
theorem evaluate_withResults (c : Cfg) (p : BoardPixel) (k : Nat) (oscq sprq : Word) (plbq hdq : Byte) (s : State) :
    evaluate c p k (withResults oscq sprq plbq hdq s) =
      withResults oscq (evaluate c p k s).sprq (evaluate c p k s).plbq hdq (evaluate c p k s) := by
  obtain ⟨hspr, hplb⟩ : (evaluate c p k s).sprq = (fetchAll c s).sprq ∧ (evaluate c p k s).plbq = (fetchAll c s).plbq := by
    rw [evaluate_frame]
    exact ⟨rfl, rfl⟩
  rw [hspr, hplb, evaluate, fetchAll_withResults]
  exact fillFb_withResults c _ _ _ oscq _ _ hdq (collide c p (fetchAll c s))

/-- After the first evaluation of a board pixel `SPRQ` and `PLBQ` no longer depend on what they held. -/
theorem evaluations_withResults (c : Cfg) (p : BoardPixel) (oscq sprq : Word) (plbq hdq : Byte) (s : State) {n : Nat}
    (hn : 0 < n) :
    evaluations c p n (withResults oscq sprq plbq hdq s) =
      withResults oscq (evaluations c p n s).sprq (evaluations c p n s).plbq hdq (evaluations c p n s) := by
  induction n, hn using Nat.le_induction with
  | base => exact evaluate_withResults c p 0 oscq sprq plbq hdq s
  | succ n _ ih =>
    rw [evaluations, ih]
    exact evaluate_withResults c p n oscq _ _ hdq _

theorem producePixel_withResults {c : Cfg} (hc : c.WF) (oscq sprq : Word) (plbq hdq : Byte) (s : State) :
    producePixel c (withResults oscq sprq plbq hdq s) =
      withResults oscq (producePixel c s).sprq (producePixel c s).plbq hdq (producePixel c s) :=
  congrArg advanceScan
    (evaluations_withResults c (boardPixel c (latched c s)) oscq sprq plbq hdq (latched c s) hc.subpix_pos)

/-- Result latches are among the fields that `LINE` never reads (rule R93). -/
theorem prepareLine_withResults (c : Cfg) (v : Byte) (oscq sprq : Word) (plbq hdq : Byte) (s : State) :
    prepareLine c v (withResults oscq sprq plbq hdq s) = withResults oscq sprq plbq hdq (prepareLine c v s) := by
  rw [prepareLine_withUnread c v (s := s) rfl, prepareLine_frame c v s]
  rfl

/-- Settles O43: the four operations commute with a change of the latches they do not write. -/
theorem pipelineIgnoresResultLatches : Obligations.PipelineIgnoresResultLatches := by
  intro s oscq sprq plbq hdq code v m
  refine ⟨⟨_, rfl, rfl⟩, ⟨_, rfl, ?_⟩, ⟨_, rfl, ?_⟩, fun hbusy => ⟨_, exec_pix_next.mpr ⟨hbusy, rfl⟩, ?_⟩⟩
  · exact congrArg Host.Outcome.next (prepareLine_withResults Config.cfg v oscq sprq plbq hdq s)
  · exact congrArg Host.Outcome.next (fetchAll_withResults Config.cfg oscq sprq plbq hdq s)
  · exact exec_pix_next.mpr ⟨hbusy, producePixel_withResults Config.cfg_wf oscq sprq plbq hdq s⟩

end Sys2Proof.Proofs
end

section
/-!
PROOF. The sprite ROM's address and nibble (20_memory.md rules R43, R44) and the host writes that fall on nothing (rules R47, R56,
30_encoding.md rule R65, 44_system_ops.md rule R152).
-/

namespace Sys2Proof.Proofs
open Sys2Proof.Machine

/-! ### The sprite ROM -/

/-- Offset bits 14 to 1, the in-bank address of rule R43. -/
theorem offsetField_toNat (o : Half) : (o.extractLsb' 1 14).toNat = o.toNat / 2 % 2 ^ 14 := by
  rw [BitVec.extractLsb'_toNat, Nat.shiftRight_eq_div_pow, pow_one]

/-- Bit 15 of the offset, the direction bit, is not an address line (rule R43, C4). -/
theorem offsetField_flipDirection (o : Half) : (o ^^^ 0x8000#16).extractLsb' 1 14 = o.extractLsb' 1 14 := by
  rw [BitVec.extractLsb'_xor, show (0x8000#16).extractLsb' 1 14 = 0#14 by decide, BitVec.xor_zero]

/-- Bank and in-bank address fit the ROM of a well-formed descriptor (rule R6). -/
theorem bankAddress_lt {c : Cfg} (hc : c.WF) (l : Fin 8) {x : Nat} (hx : x < 2 ^ c.bankShift) :
    l.val * 2 ^ c.bankShift + x < 2 ^ c.romBits :=
  calc l.val * 2 ^ c.bankShift + x
    _ < (l.val + 1) * 2 ^ c.bankShift := by rw [Nat.succ_mul]; exact Nat.add_lt_add_left hx _
    _ ≤ 8 * 2 ^ c.bankShift := Nat.mul_le_mul_right _ l.isLt
    _ = 2 ^ (c.bankShift + 3) := by rw [pow_add, Nat.mul_comm]; rfl
    _ ≤ 2 ^ c.romBits := Nat.pow_le_pow_right Nat.two_pos hc.rom_len

/-- The in-bank address stays below the bank field (rule R43, `BANK_SHIFT >= 14`). -/
theorem inBank_lt {c : Cfg} (hc : c.WF) (o : Half) : o.toNat / 2 % 2 ^ 14 < 2 ^ c.bankShift :=
  (Nat.mod_lt _ (by decide)).trans_le (Nat.pow_le_pow_right Nat.two_pos hc.bankShift_min)

/-- The fields do not overlap, so their disjunction is their sum, and nothing is cut off (rule R43). -/
theorem romAddr_eq {c : Cfg} (hc : c.WF) (l : Fin 8) (o : Half) :
    romAddr c l o = l.val * 2 ^ c.bankShift + o.toNat / 2 % 2 ^ 14 := by
  have hin := inBank_lt hc o
  rw [romAddr, offsetField_toNat, ← Nat.shiftLeft_add_eq_or_of_lt hin, Nat.shiftLeft_eq,
    Nat.mod_eq_of_lt (bankAddress_lt hc l hin)]

theorem romAddr_flipDirection (c : Cfg) (l : Fin 8) (o : Half) : romAddr c l (o ^^^ 0x8000#16) = romAddr c l o := by
  rw [romAddr, offsetField_flipDirection, romAddr]

/-- The halves of a byte as numbers: quotient and remainder by 16 (rule R44). -/
theorem nibbleOf_toNat (b : Byte) (low : Bool) : (nibbleOf b low).toNat = if low then b.toNat % 16 else b.toNat / 16 := by
  cases low with
  | true => exact BitVec.extractLsb'_toNat 0 4 b
  | false =>
    have hhigh : b.toNat / 16 < 16 := Nat.div_lt_of_lt_mul b.isLt
    exact (BitVec.extractLsb'_toNat 4 4 b).trans
      ((congrArg (· % 16) (Nat.shiftRight_eq_div_pow _ 4)).trans (Nat.mod_eq_of_lt hhigh))

/-- Offset bit 0 = 0 takes the high nibble (rule R44). -/
theorem romNibble_toNat (c : Cfg) (l : Fin 8) (o : Half) :
    (romNibble c l o).toNat =
      if o.toNat % 2 = 0 then (c.sprrom (romAddr c l o)).toNat / 16 else (c.sprrom (romAddr c l o)).toNat % 16 := by
  have hbit : o.getLsbD 0 = decide (o.toNat % 2 = 1) := Nat.testBit_zero _
  rw [romNibble, nibbleOf_toNat, hbit]
  rcases Nat.mod_two_eq_zero_or_one o.toNat with h | h <;> simp [h]

/-- Settles O35: bank and in-bank address are added without overlap, and the address reads offset bits 14 to 1 only. -/
theorem romAddressAndNibble : Obligations.RomAddressAndNibble := by
  intro c hc l o
  refine ⟨romAddr_eq hc l o, ?_, romAddr_flipDirection c l o, romNibble_toNat c l o⟩
  rw [romAddr_eq hc]
  exact bankAddress_lt hc l (inBank_lt hc o)

/-! ### Host writes to nothing -/

/-- Latch addresses 6 and up hold nothing (rule R56). -/
theorem latchSet_of_six_le (l : Latches) {a : Nat} (ha : 6 ≤ a) (b : Byte) : latchSet l a b = l := by
  obtain ⟨k, rfl⟩ := Nat.exists_eq_add_of_le' ha
  rfl

/-- Only V3 has a starfield plane (rule R47). -/
theorem starSize_eq_zero {c : Cfg} (hv : c.variant ≠ .v3) : starSize c = 0 := by
  unfold starSize
  split
  · rfl
  · rfl
  · next hv3 => exact absurd hv3 hv

theorem writeSel_latch_empty (c : Cfg) {addr : Half} (h : 6 ≤ addr.toNat % 8) (data : Byte) (s : State) :
    writeSel c 2#4 addr data s = s :=
  congrArg (fun latch => { s with latch }) (latchSet_of_six_le s.latch h data)

theorem writeSel_star_absent {c : Cfg} (hv : c.variant ≠ .v3) (addr : Half) (data : Byte) (s : State) :
    writeSel c 3#4 addr data s = s :=
  if_neg (starSize_eq_zero hv).not_gt

/-- Selector 4 names the collision register, which takes no host byte (rule R56); 5 to 15 name nothing (rule R65). -/
theorem writeSel_of_four_le (c : Cfg) {sel : BitVec 4} (h : 4#4 ≤ sel) (addr : Half) (data : Byte) (s : State) :
    writeSel c sel addr data s = s := by
  rcases eq_or_ne sel 4#4 with rfl | hne
  · rfl
  · rw [writeSel, spaceOfSel_none (by bv_omega)]

/-- Settles O12: each of the three kinds of target drops the byte. -/
theorem hwrToNothingIsDropped : Obligations.HwrToNothingIsDropped := by
  intro s sel addr data h
  refine congrArg Host.Outcome.next ?_
  rcases h with ⟨rfl, haddr⟩ | ⟨rfl, hvariant⟩ | hsel
  · exact writeSel_latch_empty Config.cfg haddr data s
  · exact writeSel_star_absent hvariant addr data s
  · exact writeSel_of_four_le Config.cfg hsel addr data s

end Sys2Proof.Proofs
end

section
/-!
PROOF. The encoding (30_encoding.md rules R61 to R68): decoding a packed word, the round trip of every operation, the fields a
format ignores, and the words and lines written out in the spec. That ignored bits do not matter follows from the round trip:
words that agree on the used bits of an operation encode that operation alike.
-/

namespace Sys2Proof.Proofs
open Sys2Proof.Machine

/-! ### The round trip -/

/-- The decoder on a word given by its fields (rules R61, R64). -/
theorem decodeWord_packWord (op sel : BitVec 4) (addr : Half) (arg : Byte) :
    decodeWord (packWord op sel addr arg) = decodeFields op.toNat sel addr arg := by
  rw [decodeWord, opField_packWord, selField_packWord, addrField_packWord, argField_packWord]

theorem decodeWord_encode (i : Instr) : decodeWord (encode i) = i := by
  cases i <;> exact decodeWord_packWord _ _ _ _

/-- A 32-bit string of the opcode table is a command word as it stands (rule R66). -/
theorem decodeTableWord_toNat (w : Word) : decodeTableWord 32 w.toNat = some (decodeWord w) := by
  have hw : BitVec.ofNat 32 (w.toNat % 2 ^ 32) = w := by
    rw [Nat.mod_eq_of_lt w.isLt, BitVec.ofNat_toNat, BitVec.setWidth_eq]
  show some (decodeWord (BitVec.ofNat 32 (w.toNat % 2 ^ 32))) = _
  rw [hw]

/-- Settles O1: the encoder packs the fields that the opcode map reads back, operation by operation. -/
theorem decodeOfEncodeIsIdentity : Obligations.DecodeOfEncodeIsIdentity := fun i =>
  ⟨decodeWord_encode i, by rw [decodeTableWord_toNat, decodeWord_encode]⟩

/-! ### Ignored fields -/

theorem packWord_and (op op' sel sel' : BitVec 4) (addr addr' : Half) (arg arg' : Byte) :
    packWord op sel addr arg &&& packWord op' sel' addr' arg' =
      packWord (op &&& op') (sel &&& sel') (addr &&& addr') (arg &&& arg') := by
  refine BitVec.eq_of_getLsbD_eq fun i _ => ?_
  rw [BitVec.getLsbD_and]
  simp only [packWord_bit]
  split_ifs <;> exact BitVec.getLsbD_and.symm

/-- The encoder keeps the fields that the decoded operation uses and clears the others; one mask for each format, with `HRD`'s
apart from `HWR`'s because it has no data (rules R62, R64). -/
theorem encode_decodeFields (op sel : BitVec 4) (addr : Half) (arg : Byte) :
    encode (decodeFields op.toNat sel addr arg) =
      packWord op sel addr arg &&& (decodeFields op.toNat sel addr arg).usedBits := by
  have hN : packWord op sel addr arg &&& 0xF0000000#32 = packWord op 0#4 0#16 0#8 :=
    (packWord_and op (.allOnes 4) sel 0#4 addr 0#16 arg 0#8).trans (by simp only [BitVec.and_allOnes, BitVec.and_zero])
  have hA : packWord op sel addr arg &&& 0xF00000FF#32 = packWord op 0#4 0#16 arg :=
    (packWord_and op (.allOnes 4) sel 0#4 addr 0#16 arg (.allOnes 8)).trans
      (by simp only [BitVec.and_allOnes, BitVec.and_zero])
  have hHwr : packWord op sel addr arg &&& 0xFFFFFFFF#32 = packWord op sel addr arg := BitVec.and_allOnes
  have hHrd : packWord op sel addr arg &&& 0xFFFFFF00#32 = packWord op sel addr 0#8 :=
    (packWord_and op (.allOnes 4) sel (.allOnes 4) addr (.allOnes 16) arg 0#8).trans
      (by simp only [BitVec.and_allOnes, BitVec.and_zero])
  obtain ⟨n⟩ := op
  fin_cases n
  -- by rising `op`: `OSC` and `LINE` at 3 and 4, `HWR` at 7, `HRD` at 8
  exacts [hN.symm, hN.symm, hN.symm, hA.symm, hA.symm, hN.symm, hN.symm, hHwr.symm, hHrd.symm, hN.symm, hN.symm, hN.symm,
    hN.symm, hN.symm, hN.symm, hN.symm]

/-- Encoding what a word decodes to clears its ignored bits. -/
theorem encode_decodeWord (w : Word) : encode (decodeWord w) = w &&& (decodeWord w).usedBits :=
  (encode_decodeFields _ _ _ _).trans (by rw [packWord_fields, decodeWord])

/-- Format and used bits depend on `op` alone (rule R62). -/
theorem format_usedBits_of_opField {w w' : Word} (h : opField w = opField w') :
    (decodeWord w).format = (decodeWord w').format ∧ (decodeWord w).usedBits = (decodeWord w').usedBits := by
  unfold decodeWord decodeFields
  rw [h]
  split <;> exact ⟨rfl, rfl⟩

/-- Every operation uses the whole of `op`. -/
theorem opField_and_usedBits (w : Word) (i : Instr) : opField (w &&& i.usedBits) = opField w := by
  have hmask : opField i.usedBits = .allOnes 4 := by cases i <;> simp only [Instr.usedBits] <;> decide
  rw [opField, BitVec.extractLsb'_and, ← opField, ← opField, hmask, BitVec.and_allOnes]

/-- The used bits of a word's operation determine it. -/
theorem decodeWord_eq_of_usedBits {w w' : Word} (h : w' &&& (decodeWord w).usedBits = w &&& (decodeWord w).usedBits) :
    decodeWord w' = decodeWord w := by
  have hop : opField w' = opField w := by
    rw [← opField_and_usedBits w' (decodeWord w), h, opField_and_usedBits]
  have henc : encode (decodeWord w') = encode (decodeWord w) := by
    rw [encode_decodeWord, encode_decodeWord, (format_usedBits_of_opField hop).2, h]
  rw [← decodeWord_encode (decodeWord w'), henc, decodeWord_encode]

/-- Settles O2: replacing the bits outside an operation's fields leaves its used bits as they are. -/
theorem unusedFieldsAreIgnored : Obligations.UnusedFieldsAreIgnored := by
  refine ⟨fun w w' h => (format_usedBits_of_opField h).1, fun w x => decodeWord_eq_of_usedBits ?_, encode_decodeWord⟩
  generalize (decodeWord w).usedBits = m
  rw [BitVec.and_or_distrib_right, BitVec.and_assoc, BitVec.and_self, BitVec.and_assoc, BitVec.not_and_self]
  simp

/-! ### The opcode map and the spec's samples -/

/-- Settles O3: each code's row of the opcode map, by the decoder on packed words. -/
theorem opcodeMapOfEveryWord : Obligations.OpcodeMapOfEveryWord := by
  intro sel addr arg
  have h (op : BitVec 4) : decodeWord (op ++ sel ++ addr ++ arg) = decodeFields op.toNat sel addr arg :=
    decodeWord_packWord op sel addr arg
  exact ⟨h _, h _, h _, h _, h _, h _, h _, h _, h _, h _, h _, h _, h _, h _, h _, h _⟩

/-- Settles O4: eleven literal words, decoded. -/
theorem sampleWordsDecode : Obligations.SampleWordsDecode := by
  unfold Obligations.SampleWordsDecode
  decide

/-- Settles O5: ten literal lines, assembled. -/
theorem assembledLines : Obligations.AssembledLines := by
  unfold Obligations.AssembledLines
  decide

/-! ### Words without effect -/

/-- Which codes the opcode map gives to `NOP` and the reserved operations (rule R65). -/
theorem isNop_decodeFields (op sel : BitVec 4) (addr : Half) (arg : Byte) :
    isNop (decodeFields op.toNat sel addr arg) = decide (op = 0#4 ∨ 9#4 ≤ op) := by
  obtain ⟨n⟩ := op
  fin_cases n <;> rfl

/-- Settles O8: the word decodes to an operation that leaves the state it is given, which is the state without that word. -/
theorem reservedWordsHaveNoEffect : Obligations.ReservedWordsHaveNoEffect := by
  intro s w ws hp hop
  rw [stepRunsTheDecodedOperation.1 s w ws hp]
  exact exec_next_iff.mpr (.nop ((isNop_decodeFields _ _ _ _).trans (decide_eq_true hop)))

end Sys2Proof.Proofs
end

section
/-!
PROOF. The scanlines of `FRAME` (30_encoding.md rule R68): its expansion is one `SCAN` for each of its lines, and the lines rise.
-/

namespace Sys2Proof.Proofs
open Sys2Proof.Machine

theorem linesOf_pixels_append (n : Nat) (is : List Instr) : linesOf (List.replicate n .pix ++ is) = linesOf is := by
  induction n with
  | zero => rfl
  | succ n ih => exact ih

/-- Each `SCAN` prepares its own line and no other. -/
theorem linesOf_scanPrograms (vs : List Byte) : linesOf (vs.flatMap scanProgram) = vs := by
  induction vs with
  | nil => rfl
  | cons v vs ih => exact congrArg (v :: ·) ((linesOf_pixels_append 256 _).trans ih)

/-- The numbers of `n` scanlines from `v` on, ascending. -/
def linesFrom (v n : Nat) : List Byte := (List.range n).map fun k => BitVec.ofNat 8 (v + k)

theorem linesFrom_succ (v n : Nat) : linesFrom v (n + 1) = BitVec.ofNat 8 v :: linesFrom (v + 1) n := by
  simp [linesFrom, List.range_succ_eq_map, Nat.add_comm, Nat.add_left_comm]

theorem scansFrom_eq (v n : Nat) : scansFrom v n = (linesFrom v n).flatMap scanProgram := by
  induction n generalizing v with
  | zero => rfl
  | succ n ih => rw [scansFrom, ih, linesFrom_succ, List.flatMap_cons]

theorem ascendingLines_of_isChain {vs : List Byte} (h : vs.IsChain (· < ·)) : ascendingLines vs = true := by
  induction h with
  | nil => rfl
  | singleton => rfl
  | cons_cons hlt _ ih => rw [ascendingLines, decide_eq_true hlt, ih]; rfl

/-- Line numbers rise as long as they fit a byte. -/
theorem ascendingLines_linesFrom {v n : Nat} (h : v + n ≤ 256) : ascendingLines (linesFrom v n) = true := by
  refine ascendingLines_of_isChain ((List.isChain_map _).mpr ((List.isChain_range _ n).mpr fun m hm => ?_))
  rw [BitVec.lt_def, BitVec.toNat_ofNat, BitVec.toNat_ofNat]
  omega

theorem mem_linesFrom {v n : Nat} (h : v + n ≤ 256) (w : Byte) : w ∈ linesFrom v n ↔ v ≤ w.toNat ∧ w.toNat < v + n := by
  simp only [linesFrom, List.mem_map, List.mem_range]
  constructor
  · rintro ⟨k, hk, rfl⟩
    rw [BitVec.toNat_ofNat]
    omega
  · rintro ⟨hle, hlt⟩
    exact ⟨w.toNat - v, by omega, by rw [Nat.add_sub_cancel' hle, BitVec.ofNat_toNat, BitVec.setWidth_eq]⟩

/-- Settles O53: the lines are `linesFrom v0 (v1 - v0 + 1)`, which fit a byte because `v1` does. -/
theorem frameScansEachLineOnce : Obligations.FrameScansEachLineOnce := by
  intro v0 v1 hle lines
  rw [BitVec.le_def] at hle
  have hfit : v0.toNat + (v1.toNat - v0.toNat + 1) ≤ 256 := by omega
  have hexpand : (Pseudo.frame v0 v1).expand = lines.flatMap scanProgram := by
    rw [Pseudo.expand, Nat.sub_add_comm hle]
    exact scansFrom_eq _ _
  refine ⟨hexpand, hexpand ▸ linesOf_scanPrograms lines, ascendingLines_linesFrom hfit, fun v => ?_⟩
  rw [BitVec.le_def, BitVec.le_def]
  exact (mem_linesFrom hfit v).trans (by omega)

end Sys2Proof.Proofs
end

section
/-!
PROOF. The colours a scanline leaves in the row (43_compositor.md rules R111 to R121): the rules' closed forms of a board pixel
(`pixelStart`, `ruleColour`) are what the machine computes, and no later pixel of the line writes an entry again.
-/

namespace Sys2Proof.Proofs
open Sys2Proof.Machine

/-! ### The closed forms of a board pixel -/

theorem ruleArea_eq (c : Cfg) (s : State) : ruleArea c s = pixelArea c s := by
  cases hv : c.variant <;> simp [ruleArea, pixelArea, areaCode, hasArea, hv]

theorem ruleColumn_eq (c : Cfg) (s : State) : ruleColumn c s = fgColumn c s := by
  cases hv : c.variant <;> simp [ruleColumn, fgColumn, hasScramble, hv]

/-- The enable latch, half by half of `VE` (rule R113). -/
theorem latchLive_enableBits (lst : BitVec 8) (hi lo : Byte) (ve : BitVec 16) :
    latchLive lst (enableBits hi lo ve) = lst ||| (lo &&& ve.extractLsb' 0 8) ||| (hi &&& ve.extractLsb' 8 8) := by
  have hlow : (hi ++ lo : BitVec 16).extractLsb' 0 8 = lo := BitVec.extractLsb'_append_eq_right
  have hhigh : (hi ++ lo : BitVec 16).extractLsb' 8 8 = hi := BitVec.extractLsb'_append_eq_left
  rw [latchLive, enableBits, BitVec.extractLsb'_and, BitVec.extractLsb'_and, hlow, hhigh]

/-- The state that the rules let `PIX` fetch from is the state after its enable latch and area step. -/
theorem pixelStart_eq (c : Cfg) (s : State) : pixelStart c s = latched c s := by
  have hlst : (latched c s).lst = (pixelStart c s).lst := latchLive_enableBits s.lst _ _ s.ve
  have hroad : (latched c s).roadLeft = (pixelStart c s).roadLeft := by
    show roadAfter c s.roadLeft (pixelArea c s) s.latch = (s.roadLeft || _)
    cases hv : c.variant <;> simp [roadAfter, hasArea, ruleArea_eq, hv]
  rw [latched_frame, hlst, hroad]
  rfl

/-- The machine's colour of an evaluation is the rules' (rules R114 to R120). -/
theorem pixelColor_boardPixel (c : Cfg) (s : State) (k : Nat) (spr : Word) (plb : Byte) :
    pixelColor c (boardPixel c s) k { s with sprq := spr, plbq := plb } = ruleColour c s spr plb k := by
  simp only [ruleColour, ruleArea_eq, ruleColumn_eq]
  cases hv : c.variant <;> simp [pixelColor, hasStar, hv] <;> rfl

/-- Entry `k` of a board pixel's part of the row (rules R116, R121). -/
theorem producePixel_entry (s : State) {k : Nat} (hk : k < Config.cfg.hscale) :
    fbEntry Config.cfg (producePixel Config.cfg s) (s.h.toNat * Config.cfg.hscale + k) =
      ruleColour Config.cfg s (fetches Config.cfg (k + 1) (pixelStart Config.cfg s)).sprq
        (fetches Config.cfg (k + 1) (pixelStart Config.cfg s)).plbq k := by
  have hinside := producePixel_inside Config.cfg s k 0 (Config.cfg_subpix ▸ hk) (by rw [rep_cfg]; decide)
  rw [rep_cfg, Nat.mul_one, Nat.add_zero] at hinside
  rw [hinside, pixelStart_eq, ← pixelColor_boardPixel]
  refine pixelColor_congr _ _ k rfl rfl ?_ ?_ ?_ ?_ <;> rw [fetches_frame] <;> rfl

/-! ### The whole row -/

/-- What the first `m` board pixels of a line wrote, the later ones keep. -/
theorem pixels_entry_kept {v : Byte} {s : State} (hs : AtPixel v 0 s) {m n x : Nat} (hmn : m ≤ n) (hn : n ≤ 256)
    (hx : x < m * Config.cfg.hscale) :
    fbEntry Config.cfg (pixels Config.cfg n s) x = fbEntry Config.cfg (pixels Config.cfg m s) x := by
  induction n, hmn using Nat.le_induction with
  | base => rfl
  | succ n hmn ih =>
    have hh : (pixels Config.cfg n s).h.toNat = n := (pixels_atPixel hs n (by omega)).h.trans (Nat.mod_eq_of_lt hn)
    have hleft : x < (pixels Config.cfg n s).h.toNat * Config.cfg.hscale :=
      hh.symm ▸ hx.trans_le (Nat.mul_le_mul_right _ hmn)
    exact (producePixel_outside _ _ x (.inl hleft)).trans (ih (by omega))

/-- Settles O45: pixel `h` writes its entries from the state after `h` pixels, and the later pixels keep them. -/
theorem scanWritesTheWholeRow : Obligations.ScanWritesTheWholeRow := by
  intro s v
  have hat := prepareLine_atPixel Config.cfg v s
  refine ⟨_, _, rfl, execTimes_pix hat 256 (Nat.le_refl _), fun h k hh hk => ?_⟩
  have hpix := pixels_atPixel (c := Config.cfg) hat h hh.le
  have hcol : (pixels Config.cfg h (prepareLine Config.cfg v s)).h.toNat = h := hpix.h.trans (Nat.mod_eq_of_lt hh)
  refine ⟨_, _, execTimes_pix hat h hh.le, hpix.v, hcol, execTimes_fetch _ _, ?_⟩
  have hx : h * Config.cfg.hscale + k < (h + 1) * Config.cfg.hscale := by rw [Nat.succ_mul]; omega
  rw [pixels_entry_kept hat hh (Nat.le_refl _) hx, ← producePixel_entry _ hk, hcol, pixels]

end Sys2Proof.Proofs
end

section
/-!
PROOF. The oscillator (40_oscillator.md rules R76, R78, R80 to R82). Everything rests on three facts: the step rate reads the code
and the resistances through the control voltage alone, the clamp is monotone, and the unclamped voltage rises with the code.
-/

namespace Sys2Proof.Proofs
open Sys2Proof.Machine

/-! ### The resistances -/

theorem resistances_nonneg {c : Cfg} (hc : c.WF) (n : Nat) : 0 ≤ (resistances c n).1 ∧ 0 ≤ (resistances c n).2 := by
  unfold resistances
  split
  · exact hc.pot_nonneg n
  · exact ⟨hc.ra_nonneg, hc.rb_nonneg⟩

/-! ### The clamp -/

theorem clampVolts_monotone : Monotone clampVolts := fun x y hxy => by
  rw [clampVolts_eq, clampVolts_eq]
  exact max_le_max_left 0 (min_le_min_left 5 hxy)

theorem clampVolts_of_nonneg {x : ℝ} (h : 0 ≤ x) : clampVolts x = min 5 x := by
  rw [clampVolts_eq, max_eq_right (le_min (by norm_num) h)]

/-- Past the upper clamp. -/
theorem clampVolts_of_five_lt {x : ℝ} (h : 5 < x) : clampVolts x = 5 := by
  rw [clampVolts_of_nonneg (by linarith), min_eq_left h.le]

/-! ### Currents and voltages as functions of the code -/

theorem outCurrent_zero (rb : ℝ) : outCurrent 0#8 rb = 0 := by simp [outCurrent]

theorem outCurrent_le {code code' : Byte} {rb : ℝ} (hrb : 0 ≤ rb) (hcode : code ≤ code') :
    outCurrent code rb ≤ outCurrent code' rb := by
  have hnat : (code.toNat : ℝ) ≤ code'.toNat := Nat.cast_le.mpr (BitVec.le_def.mp hcode)
  have href := (refCurrent_pos hrb).le
  unfold outCurrent
  gcongr

/-- The largest reference voltage, at `RA = 0`, is 25/24 V. -/
theorem refVoltage_lt_five {ra : ℝ} (hra : 0 ≤ ra) : refVoltage ra < 5 := by
  unfold refVoltage
  rw [div_lt_iff₀ (by linarith)]
  linarith

/-- The voltage that rule R76 step 4 clamps rises with the code. -/
theorem unclampedVoltage_le {code code' : Byte} (ra : ℝ) {rb : ℝ} (hrb : 0 ≤ rb) (hcode : code ≤ code') :
    2200 * outCurrent code rb + refVoltage ra ≤ 2200 * outCurrent code' rb + refVoltage ra := by
  linarith [outCurrent_le hrb hcode]

/-- For resistances the lower clamp never acts (rule R78 (b)). -/
theorem controlVoltage_eq_min (code : Byte) {ra rb : ℝ} (hra : 0 ≤ ra) (hrb : 0 ≤ rb) :
    controlVoltage code ra rb = min 5 (2200 * outCurrent code rb + refVoltage ra) :=
  clampVolts_of_nonneg (by linarith [outCurrent_nonneg code hrb, refVoltage_pos hra])

/-- Code 0 gives the reference voltage, which no clamp changes (rule R78 (d)). -/
theorem controlVoltage_zero {ra : ℝ} (rb : ℝ) (hra : 0 ≤ ra) : controlVoltage 0#8 ra rb = refVoltage ra := by
  rw [controlVoltage, outCurrent_zero, mul_zero, zero_add, clampVolts_of_nonneg (refVoltage_pos hra).le,
    min_eq_right (refVoltage_lt_five hra).le]

/-- Once a code is clamped at 5 V, so is every larger one (rule R78 (c)). -/
theorem controlVoltage_eq_of_clamped {code code' : Byte} {ra rb : ℝ} (hrb : 0 ≤ rb) (hcode : code ≤ code')
    (h : 5 < 2200 * outCurrent code rb + refVoltage ra) : controlVoltage code' ra rb = controlVoltage code ra rb := by
  have h' := h.trans_le (unclampedVoltage_le ra hrb hcode)
  rw [controlVoltage, controlVoltage, clampVolts_of_five_lt h, clampVolts_of_five_lt h']

/-- Settles O18: the clamp is monotone and the voltage under it rises with the code. -/
theorem controlVoltageNonDecreasing : Obligations.ControlVoltageNonDecreasing :=
  fun _ _ ra _ _ hrb hcode => clampVolts_monotone (unclampedVoltage_le ra hrb hcode)

/-! ### The step rate as a function of the control voltage -/

/-- The step reads the code and the resistances through the control voltage alone. -/
theorem stepRate_eq_of_voltage (c : Cfg) {code code' : Byte} {r r' : ℝ × ℝ}
    (h : controlVoltage code' r'.1 r'.2 = controlVoltage code r.1 r.2) : stepRate c code' r' = stepRate c code r := by
  rw [stepRate, stepRate, rawStep_eq, rawStep_eq, h]

/-- The step reads the curve at the clamped voltage alone, so between 0 V and 5 V (rule R78 (a)). -/
theorem stepRate_eq_of_curve {c : Cfg} {f : ℝ → ℝ → ℝ} (h : ∀ cv, 0 ≤ cv → cv ≤ 5 → f cv c.cext = c.fvco cv c.cext)
    (code : Byte) (r : ℝ × ℝ) : stepRate { c with fvco := f } code r = stepRate c code r := by
  have hcv := h (controlVoltage code r.1 r.2) (clampVolts_nonneg _) (clampVolts_le _)
  simp only [stepRate, rawStep_eq, scaledFreq, hcv]

theorem scaledFreq_le {c : Cfg} {x y : ℝ} (h : c.fvco x c.cext ≤ c.fvco y c.cext) : scaledFreq c x ≤ scaledFreq c y := by
  unfold scaledFreq
  gcongr

/-- Words compare as the raw steps do, because the cut to 32 bits loses nothing of them. -/
theorem stepRate_le_of_rawStep_le {c : Cfg} (hc : c.WF) {code code' : Byte} {r r' : ℝ × ℝ}
    (h : rawStep c code r ≤ rawStep c code' r') : stepRate c code r ≤ stepRate c code' r' := by
  rw [← stepRateNeedsNoReduction c hc, ← stepRateNeedsNoReduction c hc] at h
  exact BitVec.le_def.mpr (Int.ofNat_le.mp h)

/-- Settles O19: voltage, curve, scaling, floor and the cut to a word are each non-decreasing. -/
theorem stepRateNonDecreasing : Obligations.StepRateNonDecreasing := by
  intro c hc hcurve code code' ra rb hra hrb hcode
  have hcv := controlVoltageNonDecreasing code code' ra rb hra hrb hcode
  have hfreq := hcurve _ _ (clampVolts_nonneg _) hcv (clampVolts_le _)
  exact stepRate_le_of_rawStep_le hc (Int.floor_le_floor (scaledFreq_le hfreq))

/-- Settles O17: the parts (a) to (e) of rule R78, each by its lemma. -/
theorem controlVoltageEdgeCases : Obligations.ControlVoltageEdgeCases := by
  refine ⟨fun c f code r h => stepRate_eq_of_curve h code r,
    fun code ra rb hra hrb => ⟨refVoltage_pos hra, outCurrent_nonneg code hrb, controlVoltage_eq_min code hra hrb⟩,
    fun c code code' ra rb _ hrb hcode h => ?clamped,
    fun ra rb hra => ⟨outCurrent_zero rb, controlVoltage_zero rb hra⟩,
    fun c hc n => ?divisors⟩
  case clamped =>
    have hcv := controlVoltage_eq_of_clamped hrb hcode h
    exact ⟨hcv, stepRate_eq_of_voltage c hcv⟩
  case divisors =>
    obtain ⟨hra, hrb⟩ := resistances_nonneg hc n
    constructor <;> linarith

/-! ### The operation -/

/-- The step rate with the intermediate values of rule R76 written out. -/
theorem stepRate_eq_formula (c : Cfg) (code : Byte) (r : ℝ × ℝ) :
    stepRate c code r = BitVec.ofInt 32
      ⌊c.fvco (max 0 (min 5 (2200 * (5 / (1500 + r.2) * ((code.toNat : ℝ) / 256)) + 5 * 1000 / (3800 + 1000 + r.1)))) c.cext /
        (5000000 * (c.hscale : ℝ)) * 2 ^ 24⌋ := by
  have hdiv : ((baseClock * c.hscale : Nat) : ℝ) = 5000000 * (c.hscale : ℝ) := by simp [baseClock]
  rw [stepRate, rawStep, hdiv, controlVoltage, clampVolts_eq, outCurrent, refCurrent, refVoltage,
    Nat.cast_pow, Nat.cast_ofNat]

/-- Settles O15: `OSC` latches the descriptor's step rate, which well-formedness makes rule R76's formula. -/
theorem oscLatchesTheStepRate : Obligations.OscLatchesTheStepRate := by
  intro s code r iref iout vref cv freq
  show Host.Outcome.next (oscillate Config.cfg code s) = _
  rw [oscillate, nextStepRate_eq Config.cfg_wf, stepRate_eq_formula]
  rfl

end Sys2Proof.Proofs
end

section
/-!
PROOF. The line arbiter (41_line_arbiter.md rules R84 to R94). The two adders and the activity predicate are facts about numbers;
the rest is read off the closed form of the slot scan (`prepareLine_law`). `LINE` leaves bytes 0 to 5 of every slot alone, and
these alone say whether a slot is active, whether it is written back and by how much, so a second `LINE` decides as the first.
-/

namespace Sys2Proof.Proofs
open Sys2Proof.Machine

/-! ### A live level has an active slot -/

/-- A bit that is live after the enable latch was live before it or has a slot active on the line (rule R113). -/
theorem latched_lst_bit (c : Cfg) (s : State) (l : Fin 8) (h : (latched c s).lst.getLsbD l.val = true) :
    s.lst.getLsbD l.val = true ∨ s.ve.getLsbD l.val = true ∨ s.ve.getLsbD (8 + l.val) = true := by
  rw [← pixelStart_eq] at h
  simp only [pixelStart, BitVec.getLsbD_or, BitVec.getLsbD_and, BitVec.getLsbD_extractLsb', Bool.or_eq_true,
    Bool.and_eq_true, Nat.zero_add] at h
  obtain (hlst | ⟨_, _, hlow⟩) | ⟨_, _, hhigh⟩ := h
  · exact .inl hlst
  · exact .inr (.inl hlow)
  · exact .inr (.inr hhigh)

/-- Fewer live bits under the same enable vector keep the property. -/
theorem liveHasSlot_mono {s t : State} (hs : LiveHasSlot s) (hve : t.ve = s.ve)
    (hlst : ∀ l : Fin 8, t.lst.getLsbD l.val = true → s.lst.getLsbD l.val = true) : LiveHasSlot t :=
  fun l hl => hve ▸ hs l (hlst l hl)

/-- The claim is about live levels only. -/
theorem liveHasSlot_of_lst_zero {s : State} (h : s.lst = 0#8) : LiveHasSlot s := fun l hl => by
  simp [h] at hl

theorem latched_liveHasSlot (c : Cfg) {s : State} (hs : LiveHasSlot s) : LiveHasSlot (latched c s) := fun l hl =>
  (latched_lst_bit c s l hl).elim (hs l) id

theorem exec_keeps_liveHasSlot (i : Instr) (s t : State) (hs : LiveHasSlot s) (h : exec i s = .next t) :
    LiveHasSlot t := by
  cases exec_next_iff.mp h with
  | line v => exact liveHasSlot_of_lst_zero (by rw [prepareLine_frame])
  | rst => exact liveHasSlot_of_lst_zero rfl
  | fetch => exact liveHasSlot_mono hs (by rw [fetchAll_frame]) (fetches_lst_le _ 1 s)
  | pix =>
    refine liveHasSlot_mono (latched_liveHasSlot Config.cfg hs) (by rw [producePixel_frame]; rfl) ?_
    rw [producePixel_frame]
    exact fetches_lst_le _ _ (latched _ s)
  | hwr sel addr data =>
    rw [writeSel_frame]
    exact hs
  | nop | cclr | osc | hrd => exact hs

/-- Settles O58: `LINE` and `RST` leave no level live, fetches clear live bits only, and the enable latch of `PIX` sets only those
of slots active on the line. -/
theorem stepKeepsLiveHasSlot : Obligations.StepKeepsLiveHasSlot := fun s t =>
  step_keeps (fun _ _ hs => hs) exec_keeps_liveHasSlot s t

/-! ### The adders -/

/-- The carry out of the low adder as a number (rule R85). -/
theorem clo_toNat (c : Cfg) (v sL : Byte) : (clo c v sL).toNat = (v.toNat + (lowAddend c sL).toNat) / 256 := by
  have := v.isLt
  have := (lowAddend c sL).isLt
  rw [clo, BitVec.getLsbD, Nat.toNat_testBit, sum1_toNat]
  omega

/-- The carry out of the high adder counts the carry that the low adder hands on (rule R86, derived). -/
theorem chi_iff (c : Cfg) (v sL sH : Byte) :
    chi c v sL sH = true ↔ 256 ≤ v.toNat + (highAddend sH).toNat + (clo c v sL).toNat := by
  rw [chi_eq, clo_toNat, decide_eq_true_iff]
  omega

/-- The high byte of the sum is that of the high adder with the low adder's carry (rule R86, derived). -/
theorem sum2_highByte (c : Cfg) (v sL sH : Byte) :
    ((sum2 c v sL sH).extractLsb' 8 8).toNat = (v.toNat + (highAddend sH).toNat + (clo c v sL).toNat) % 256 := by
  have hdiv : (sum2 c v sL sH).toNat / 2 ^ 8 = v.toNat + (highAddend sH).toNat + (clo c v sL).toNat := by
    rw [sum2_toNat, clo_toNat]
    omega
  rw [BitVec.extractLsb'_toNat, Nat.shiftRight_eq_div_pow, hdiv]

/-- The low byte of the sum is that of the low adder (rule R86, derived). -/
theorem sum2_lowByte (c : Cfg) (v sL sH : Byte) :
    ((sum2 c v sL sH).extractLsb' 0 8).toNat = (v.toNat + (lowAddend c sL).toNat) % 256 := by
  rw [BitVec.extractLsb'_toNat, sum2_toNat, Nat.shiftRight_zero]
  omega

/-- Settles O20: the sums as numbers, below 2^9 and 2^17, with their bits 8 and 16. -/
theorem chainedAdders : Obligations.ChainedAdders := by
  intro c v sL sH a b
  have hv := v.isLt
  have ha : a < 256 := (lowAddend c sL).isLt
  have hb : b < 256 := (highAddend sH).isLt
  have hsum1 : (sum1 c v sL).toNat = v.toNat + a := sum1_toNat c v sL
  have hsum2 : (sum2 c v sL sH).toNat = v.toNat + a + v.toNat * 256 + b * 256 := sum2_toNat c v sL sH
  refine ⟨hsum1, ?clo, ?sum2, ?bound, ?chi, chi_iff c v sL sH, sum2_lowByte c v sL sH, sum2_highByte c v sL sH⟩
  case clo => rw [clo_eq, decide_eq_true_iff]; rfl
  case sum2 => omega
  case bound => omega
  case chi => rw [chi_eq, decide_eq_true_iff, ← sum2_toNat]

/-! ### The activity predicate -/

/-- Inverting a byte. -/
theorem xor_0xFF_toNat (x : Byte) : (x ^^^ 0xFF#8).toNat = 255 - x.toNat := by
  rw [show (0xFF#8) = BitVec.allOnes 8 from rfl, BitVec.xor_allOnes, BitVec.toNat_not]

/-- A slot is active iff the low adder carries and `V` lies below `startHigh`, whatever `SL_XOR` is (rule R87, derived): the high
addend is `startHigh` inverted. -/
theorem slotActive_iff (c : Cfg) (v sL sH : Byte) :
    slotActive c v sL sH = true ↔ 256 ≤ v.toNat + (lowAddend c sL).toNat ∧ v < sH := by
  have hb : (highAddend sH).toNat = 255 - sH.toNat := xor_0xFF_toNat sH
  have := sH.isLt
  rw [slotActive, Bool.and_eq_true, Bool.not_eq_true', ← Bool.not_eq_true, chi_iff, hb, BitVec.lt_def]
  refine (and_congr_right fun hclo => ?_).trans (and_congr_left' (by rw [clo_eq, decide_eq_true_iff]))
  rw [hclo, Bool.toNat_true]
  omega

/-- Settles O21: `slotActive_iff` with the low addend that each `SL_XOR` makes of `startLow`. -/
theorem activityPredicate : Obligations.ActivityPredicate := by
  intro c v sL sH
  refine ⟨?carries, fun hxor => ?inverted, fun hxor => ?plain⟩
  case carries => rw [slotActive, Bool.and_eq_true, Bool.not_eq_true']
  case inverted =>
    have ha : (lowAddend c sL).toNat = 255 - sL.toNat := by rw [lowAddend, hxor, xor_0xFF_toNat]
    have := sL.isLt
    rw [slotActive_iff, ha, BitVec.lt_def (x := sL)]
    exact and_congr_left' (by omega)
  case plain =>
    have ha : lowAddend c sL = sL := by rw [lowAddend, hxor, BitVec.xor_zero]
    rw [slotActive_iff, ha]

/-! ### The enable vector -/

/-- The `VE` bits after `LINE` (rule R88). -/
theorem prepareLine_ve (c : Cfg) (v : Byte) (s : State) (i : Fin 16) :
    (prepareLine c v s).ve.getLsbD i.val = activeSlot c (lineStart v s) i := by
  rw [(prepareLine_law c v s).ve, decide_eq_true i.isLt, Bool.true_and]
  exact (congrArg (· || _) BitVec.getLsbD_zero).trans (Bool.false_or _)

/-- Settles O22: the frame of `LINE`, and the enable vector of the slot scan. -/
theorem lineSetsTheEnableVector : Obligations.LineSetsTheEnableVector := by
  intro s v
  have hve := prepareLine_ve Config.cfg v s
  refine ⟨_, rfl, ?_⟩
  rw [prepareLine_frame] at hve ⊢
  exact ⟨rfl, rfl, rfl, rfl, rfl, hve⟩

/-! ### The write-back -/

/-- Each slot's offset after `LINE`, in terms of the bytes before (rule R89). -/
theorem prepareLine_offset_add (c : Cfg) (v : Byte) (s : State) (i : Fin 16) :
    offsetOf c (prepareLine c v s) i =
      if writesBack c (lineStart v s) i = true then offsetOf c s i + rowStepOf c s i else offsetOf c s i := by
  rw [prepareLine_offset]
  split
  · next h =>
    have hgate : slotGate c (lineStart v s) i = false := by
      rw [writesBack, Bool.and_eq_true, Bool.not_eq_true'] at h
      exact h.2
    rw [newOffset, hgate]
    rfl
  · rfl

/-- The level of an active slot takes the offset as the slot holds it after the write-back (rule R90). -/
theorem newOffset_eq_of_active {c : Cfg} {v : Byte} {s : State} {i : Fin 16}
    (h : activeSlot c (lineStart v s) i = true) : newOffset c (lineStart v s) i = offsetOf c (prepareLine c v s) i := by
  rw [prepareLine_offset, writesBack, h, newOffset]
  cases slotGate c (lineStart v s) i <;> rfl

/-- The bit of a `YTABLE` byte is picked by `yScale` modulo 8 (rule R89). -/
theorem gateBit_eq (c : Cfg) (s2 : BitVec 17) (ys : Byte) :
    gateBit c s2 ys = (c.ytable (ys.extractLsb' 3 1 ++ s2.extractLsb' 0 8)).getLsbD (ys.toNat % 8) := by
  rw [gateBit, BitVec.extractLsb'_toNat, Nat.shiftRight_zero]
  rfl

/-- Settles O23: the write-back condition is the slot's activity and its gate, written out byte by byte. -/
theorem lineWritesBackOffsets : Obligations.LineWritesBackOffsets := by
  intro s v
  refine ⟨_, rfl, ?_, prepareLine_slotByte Config.cfg v s⟩
  intro i b s2 idx gate offset rowStep
  have hgate : slotGate Config.cfg (lineStart v s) i = gate := gateBit_eq Config.cfg s2 (b 3)
  have hwrites : writesBack Config.cfg (lineStart v s) i = true ↔
      slotActive Config.cfg v (b 0) (b 1) = true ∧ gate = false := by
    rw [writesBack, hgate, Bool.and_eq_true, Bool.not_eq_true']
    rfl
  exact (prepareLine_offset_add Config.cfg v s i).trans (if_congr hwrites rfl rfl)

/-- The bytes of a slot that is not written back, the offset's among them (rule R94). -/
theorem prepareLine_keeps_slot {c : Cfg} {v : Byte} {s : State} {i : Fin 16}
    (h : writesBack c (lineStart v s) i = false) {k : Nat} (hk : k < 8) :
    slotByte c (prepareLine c v s) (slotAddr i k) = slotByte c s (slotAddr i k) :=
  (prepareLine_law c v s).kept _ fun j _ hj => by
    have hne : j.val ≠ i.val := fun e => by simp [Fin.ext e, h] at hj
    simp only [slotAddr]
    omega

/-- Settles O25: the frame of `LINE`, and the bytes that no write-back reaches. -/
theorem lineLeavesAlone : Obligations.LineLeavesAlone := by
  intro s v
  have hlow (i : Fin 16) (k : Nat) (hk : k < 6) := prepareLine_slotByte Config.cfg v s (8 * i.val + k) (by omega)
  refine ⟨_, rfl, hlow, fun i hi => ⟨prepareLine_keeps_slot hi (by decide), prepareLine_keeps_slot hi (by decide)⟩, ?_⟩
  rw [prepareLine_frame]
  exact ⟨rfl, rfl, rfl, rfl, rfl, rfl, rfl, rfl, rfl⟩

/-! ### The levels -/

/-- The registers of level `l` when slot `i` gave them, as the slot stands after the write-back (rule R90). -/
theorem slotLevel_held {c : Cfg} (hc : c.WF) {v : Byte} {s : State} {i : Fin 16} {lv : Level}
    (hact : activeSlot c (lineStart v s) i = true) (hlv : lv = slotLevel c (lineStart v s) i) :
    lv.lat = 0#32 ∧ lv.endFlag = false ∧ lv.frac = 0#32 ∧ lv.foff = offsetOf c (prepareLine c v s) i ∧
      lv.step = stepRate c (slotField c s i 2) (resistances c (s.draws + activeBelow c (lineStart v s) i.val)) := by
  subst hlv
  exact ⟨rfl, rfl, rfl, newOffset_eq_of_active hact, slotLevel_step hc _ i⟩

/-- Settles O24: each level has the registers of its winning slot, which is the higher active one. -/
theorem lineInitialisesLevels : Obligations.LineInitialisesLevels := by
  intro s v
  have hdraws : (prepareLine Config.cfg v s).draws = s.draws + activeBelow Config.cfg (lineStart v s) 16 := by
    rw [(prepareLine_law Config.cfg v s).frame]
    rfl
  refine ⟨_, rfl, hdraws, by rw [prepareLine_frame], ?_⟩
  intro l on held
  have hlevel := prepareLine_level Config.cfg v s l
  rw [winner] at hlevel
  by_cases hup : on (upperSlot l)
  · rw [if_pos hup] at hlevel ⊢
    exact slotLevel_held Config.cfg_wf hup hlevel
  · rw [if_neg hup] at hlevel ⊢
    by_cases hlow : on (lowerSlot l)
    · rw [if_pos hlow] at hlevel ⊢
      exact slotLevel_held Config.cfg_wf hlow hlevel
    · rw [if_neg hlow] at hlevel ⊢
      rw [hlevel]
      exact ⟨rfl, rfl, rfl, rfl, rfl⟩

/-! ### Twice the same line -/

/-- Bytes 0 to 5 of a slot, which `LINE` leaves alone, are all it is judged by (rules R87, R89, R94). -/
theorem prepareLine_slotField (c : Cfg) (v : Byte) (s : State) (i : Fin 16) {k : Nat} (hk : k < 6) :
    slotField c (prepareLine c v s) i k = slotField c s i k :=
  prepareLine_slotByte c v s _ (by simp only [slotAddr]; omega)

theorem rowStepOf_prepareLine (c : Cfg) (v : Byte) (s : State) (i : Fin 16) :
    rowStepOf c (prepareLine c v s) i = rowStepOf c s i := by
  rw [rowStepOf, rowStepOf, prepareLine_slotField c v s i (by decide), prepareLine_slotField c v s i (by decide)]

theorem activeSlot_again (c : Cfg) (v : Byte) (s : State) (i : Fin 16) :
    activeSlot c (lineStart v (prepareLine c v s)) i = activeSlot c (lineStart v s) i := by
  show slotActive c v (slotField c (prepareLine c v s) i 0) (slotField c (prepareLine c v s) i 1) = _
  rw [prepareLine_slotField c v s i (by decide), prepareLine_slotField c v s i (by decide)]
  rfl

theorem writesBack_again (c : Cfg) (v : Byte) (s : State) (i : Fin 16) :
    writesBack c (lineStart v (prepareLine c v s)) i = writesBack c (lineStart v s) i := by
  have hgate : slotGate c (lineStart v (prepareLine c v s)) i = slotGate c (lineStart v s) i := by
    show gateBit c (sum2 c v (slotField c (prepareLine c v s) i 0) (slotField c (prepareLine c v s) i 1))
      (slotField c (prepareLine c v s) i 3) = _
    rw [prepareLine_slotField c v s i (by decide), prepareLine_slotField c v s i (by decide),
      prepareLine_slotField c v s i (by decide)]
    rfl
  rw [writesBack, writesBack, activeSlot_again, hgate]

/-- Settles O26: the second `LINE` finds the same slots active and open, and their row steps unchanged. -/
theorem lineTwiceWritesBackTwice : Obligations.LineTwiceWritesBackTwice := by
  intro s v
  refine ⟨_, _, rfl, rfl, BitVec.eq_of_getLsbD_eq fun k hk => ?_, ?_⟩
  · have hagain := activeSlot_again Config.cfg v s ⟨k, hk⟩
    rwa [← prepareLine_ve, ← prepareLine_ve] at hagain
  · intro i b offset rowStep
    refine (prepareLine_offset_add Config.cfg v (prepareLine Config.cfg v s) i).trans ?_
    rw [writesBack_again, rowStepOf_prepareLine, prepareLine_offset_add]
    split <;> rfl

end Sys2Proof.Proofs
end

section
/-!
PROOF. The two words a fetch returns (42_bit_fetcher.md rules R96 to R99, R104, R109): the lanes of the expanded nibbles, and the
words bit by bit from the registers before the call.
-/

namespace Sys2Proof.Proofs
open Sys2Proof.Machine

/-! ### Lanes -/

theorem nibbleBit_bit (n : BitVec 4) (p j : Nat) : (nibbleBit n p).getLsbD j = (decide (j = 0) && n.getLsbD p) := by
  rw [nibbleBit, BitVec.getLsbD_setWidth, BitVec.getLsbD_ofBool]
  cases j <;> simp

theorem nibbleBit_shift_bit (n : BitVec 4) (p m j : Nat) (hm : m < 32) :
    (nibbleBit n p <<< m).getLsbD j = (decide (j = m) && n.getLsbD p) := by
  rw [BitVec.getLsbD_shiftLeft, nibbleBit_bit, ← Bool.and_assoc]
  refine congrArg (· && _) ?_
  rw [← decide_not, ← Bool.decide_and, ← Bool.decide_and]
  exact decide_eq_decide.mpr (by omega)

/-- The expansion puts nibble bit `q` at bit `8q` and sets no other bit (rule R98). -/
theorem expand_bit (n : BitVec 4) (i : Nat) : (expand n).getLsbD i = (decide (i % 8 = 0) && n.getLsbD (i / 8)) := by
  simp only [expand, BitVec.getLsbD_or, nibbleBit_bit, nibbleBit_shift_bit, Nat.reduceLT]
  by_cases hi : i % 8 = 0
  · have hbyte : i = 0 ∨ i = 8 ∨ i = 16 ∨ i = 24 ∨ 32 ≤ i := by omega
    rcases hbyte with rfl | rfl | rfl | rfl | hpast
    · simp
    · simp
    · simp
    · simp
    · have hne : i ≠ 0 ∧ i ≠ 8 ∧ i ≠ 16 ∧ i ≠ 24 := by omega
      simp [hne, BitVec.getLsbD_of_ge n (i / 8) (by omega)]
  · have hne : i ≠ 0 ∧ i ≠ 8 ∧ i ≠ 16 ∧ i ≠ 24 := by omega
    simp [hi, hne]

/-- Shifting by the level number moves the expansion into that level's lane (rule R98). -/
theorem expand_shift_bit (n : BitVec 4) (l : Fin 8) (p : Fin 4) (k : Fin 8) :
    (expand n <<< l.val).getLsbD (8 * p.val + k.val) = (decide (k = l) && n.getLsbD p.val) := by
  have hwidth : 8 * p.val + k.val < 32 := by omega
  rw [BitVec.getLsbD_shiftLeft, expand_bit]
  by_cases hk : k = l
  · subst hk
    have hlow : ¬ 8 * p.val + k.val < k.val := by omega
    simp [hwidth, hlow]
  · have hne : k.val ≠ l.val := fun h => hk (Fin.ext h)
    have hoff : 8 * p.val + k.val < l.val ∨ (8 * p.val + k.val - l.val) % 8 ≠ 0 := by omega
    rcases hoff with h | h <;> simp [h, hk]

/-- Settles O32: the lanes by `expand_shift_bit`, the table by evaluation. -/
theorem expansionAndLanes : Obligations.ExpansionAndLanes :=
  ⟨expand_shift_bit, by decide⟩

/-- The mask of a lane is the full nibble in it. -/
theorem laneMask_bit (l : Fin 8) (p : Fin 4) (k : Fin 8) :
    (laneMask l).getLsbD (8 * p.val + k.val) = decide (k = l) := by
  have hfull : ∀ q : Fin 4, (15#4).getLsbD q.val = true := by decide
  rw [laneMask, show 0x01010101#32 = expand 15#4 by decide, expand_shift_bit, hfull, Bool.and_true]

/-- A word inside the lane of level `l` has no bit in another lane. -/
theorem lane_of_bit {w : Word} {l k : Fin 8} (hlane : w &&& ~~~laneMask l = 0#32) (p : Fin 4)
    (hbit : w.getLsbD (8 * p.val + k.val) = true) : k = l := by
  have h := congrArg (BitVec.getLsbD · (8 * p.val + k.val)) hlane
  have hwidth : 8 * p.val + k.val < 32 := by omega
  simp only [BitVec.getLsbD_and, BitVec.getLsbD_not, BitVec.getLsbD_zero, hbit, laneMask_bit, hwidth] at h
  simpa using h

/-- A word with every bit of lane `l` clear is zero under its mask. -/
theorem and_laneMask_eq_zero {w : Word} {l : Fin 8} (h : ∀ p : Fin 4, w.getLsbD (8 * p.val + l.val) = false) :
    w &&& laneMask l = 0#32 := by
  refine BitVec.eq_of_getLsbD_eq fun i hi => ?_
  obtain ⟨p, k, rfl⟩ : ∃ (p : Fin 4) (k : Fin 8), i = 8 * p.val + k.val :=
    ⟨⟨i / 8, by omega⟩, ⟨i % 8, by omega⟩, (Nat.div_add_mod i 8).symm⟩
  rw [BitVec.getLsbD_and, laneMask_bit, BitVec.getLsbD_zero]
  by_cases hk : k = l
  · rw [hk, h, Bool.false_and]
  · rw [decide_eq_false hk, Bool.and_false]

/-! ### The returned words -/

/-- A bit of the boundary word a fetch returns (rules R96 step 4, R104). -/
theorem fetchAll_plbq_bit (c : Cfg) (s : State) (l : Fin 8) :
    (fetchAll c s).plbq.getLsbD l.val =
      (hasBoundaryWord c && ((liveSet c s).getLsbD l.val && (s.level l).endFlag)) := by
  rw [fetchAll_plbq, boundaryWord]
  cases hasBoundaryWord c with
  | true => exact compositeBoundary_bit c s l
  | false => exact BitVec.getLsbD_zero

/-- Settles O27: the bits of the composite and boundary words, with the live set level by level. -/
theorem fetchReturnsEarlierWords : Obligations.FetchReturnsEarlierWords := by
  intro s live
  have hlive : ∀ l, (liveSet Config.cfg s).getLsbD l.val = live l := liveSet_bit Config.cfg s
  refine ⟨_, rfl, fun j => ?_, fun l => ?_⟩
  · rw [Bool.eq_iff_iff, fetchAll_sprq, compositeWord_bit, decide_eq_true_iff]
    simp only [hlive]
  · rw [fetchAll_plbq_bit, hlive, ← Bool.and_assoc]
    rfl

/-- In level form only level `l` can set a bit of lane `l` (rules R99, R109). -/
theorem fetchAll_sprq_lane {c : Cfg} {s : State} (hs : LevelForm c s) (l : Fin 8) (p : Fin 4) :
    (fetchAll c s).sprq.getLsbD (8 * p.val + l.val) =
      ((liveSet c s).getLsbD l.val && (s.level l).lat.getLsbD (8 * p.val + l.val)) := by
  rw [Bool.eq_iff_iff, fetchAll_sprq, compositeWord_bit, Bool.and_eq_true]
  constructor
  · rintro ⟨k, hlive, hbit⟩
    obtain rfl := lane_of_bit (hs.lane k) p hbit
    exact ⟨hlive, hbit⟩
  · rintro ⟨hlive, hbit⟩
    exact ⟨l, hlive, hbit⟩

/-- Settles O33, by the lane of each level in the composite word. -/
theorem compositeWordLanes : Obligations.CompositeWordLanes := fun _ hs =>
  ⟨_, rfl, fetchAll_sprq_lane hs⟩

end Sys2Proof.Proofs
end

section
/-!
PROOF. How the fetch offset moves (42_bit_fetcher.md rule R105): up below the boundary 0x8000, down from it on, so that the two
values beside the boundary alternate.
-/

namespace Sys2Proof.Proofs
open Sys2Proof.Machine

theorem stepOffset_eq (o : Half) : stepOffset o = if o.getLsbD 15 then o - 1#16 else o + 1#16 := by
  unfold stepOffset
  split
  · exact (BitVec.sub_eq_add_neg o 1#16).symm
  · rfl

/-- Bit 15, the direction, says on which side of the boundary an offset lies. -/
theorem directionBit_eq (o : Half) : o.getLsbD 15 = decide (0x8000 ≤ o.toNat) :=
  BitVec.msb_eq_decide o

theorem stepOffset_up {o : Half} (h : o.toNat < 0x8000) : (stepOffset o).toNat = o.toNat + 1 := by
  rw [stepOffset_eq, directionBit_eq, decide_eq_false (by omega), if_neg Bool.false_ne_true]
  bv_omega

theorem stepOffset_down {o : Half} (h : 0x8000 ≤ o.toNat) : (stepOffset o).toNat = o.toNat - 1 := by
  rw [stepOffset_eq, directionBit_eq, decide_eq_true h, if_pos rfl]
  bv_omega

theorem offsetAfter_up {o : Half} {n : Nat} (h : o.toNat + n ≤ 0x8000) : (offsetAfter o n).toNat = o.toNat + n := by
  induction n with
  | zero => rfl
  | succ n ih =>
    have hn := ih (by omega)
    rw [offsetAfter, stepOffset_up (by omega), hn, Nat.add_assoc]

theorem offsetAfter_down {o : Half} {n : Nat} (h : 0x7FFF + n ≤ o.toNat) :
    (offsetAfter o n).toNat = o.toNat - n := by
  induction n with
  | zero => rfl
  | succ n ih =>
    have hn := ih (by omega)
    rw [offsetAfter, stepOffset_down (by omega), hn, Nat.sub_sub]

/-- Two offsets that lead to each other alternate. -/
theorem offsetAfter_alternates {a b : Half} (hab : stepOffset a = b) (hba : stepOffset b = a) (n : Nat) :
    offsetAfter a n = if n % 2 = 0 then a else b := by
  induction n with
  | zero => rfl
  | succ n ih =>
    rw [offsetAfter, ih]
    rcases Nat.mod_two_eq_zero_or_one n with h | h
    · simp [h, hab, Nat.add_mod]
    · simp [h, hba, Nat.add_mod]

/-- Settles O31: the moves by induction on the number of nibbles, the two nibbles by the ROM address. -/
theorem offsetStepsAndAlternates : Obligations.OffsetStepsAndAlternates := by
  have hup : stepOffset 0x7FFF#16 = 0x8000#16 := by decide
  have hdown : stepOffset 0x8000#16 = 0x7FFF#16 := by decide
  refine ⟨stepOffset_eq, fun o n => offsetAfter_up, fun o n _ => offsetAfter_down, offsetAfter_alternates hup hdown,
    offsetAfter_alternates hdown hup, fun c l hc => ⟨?_, ?_⟩⟩
  · rw [romNibble, romAddr_eq hc]
    rfl
  · rw [romNibble, romAddr_eq hc]
    rfl

end Sys2Proof.Proofs
end

section
/-!
PROOF. What a fetch does to the levels (42_bit_fetcher.md rules R100 to R110): a live level in closed form, the independence from
the levels outside the live set, and the end of a stream.
-/

namespace Sys2Proof.Proofs
open Sys2Proof.Machine

/-- Settles O30: the frame of a fetch, and each level either advances with its `STEP` kept or stays. -/
theorem fetchLeavesAlone : Obligations.FetchLeavesAlone := by
  refine fun s => ⟨_, rfl, fetchAll_frame Config.cfg s, fun l => ?_, fetches_lst_le Config.cfg 1 s⟩
  rw [fetchAll_level]
  split
  · exact advanceLevel_step Config.cfg l (s.level l)
  · rfl

/-! ### A live level -/

/-- In V1 the end nibbles are 4 to 7 and none sets the boundary flag (rule R103). -/
theorem classify_v1 {c : Cfg} (h : c.variant = .v1) (n : BitVec 4) :
    ((classify c n).ends = true ↔ 4#4 ≤ n ∧ n ≤ 7#4) ∧ (classify c n).boundary = false := by
  have hends : ∀ n : BitVec 4, (!n.getLsbD 3 && n.getLsbD 2) = true ↔ 4#4 ≤ n ∧ n ≤ 7#4 := by decide
  rw [classify, h]
  exact ⟨hends n, rfl⟩

/-- In V2 and V3 the classification is the descriptor's open table (rule R103). -/
theorem classify_open {c : Cfg} (h : c.variant ≠ .v1) (n : BitVec 4) : classify c n = c.classifyOpen n := by
  rw [classify]
  split
  · next hv => exact absurd hv h
  · rfl
  · rfl

/-- The threshold as a number (rule R101). -/
theorem fracOne_toNat (c : Cfg) : (fracOne c).toNat = if c.variant = .v1 then 0x1000000 else 0x800000 := by
  unfold fracOne
  cases c.variant <;> rfl

/-- A call fetches at most 255 nibbles in V1 and 511 in V2 and V3 (rule R106). -/
theorem nibblesDue_le (c : Cfg) (lv : Level) : nibblesDue c lv ≤ if c.variant = .v1 then 255 else 511 := by
  have hx := (lv.frac + lv.step).isLt
  rw [nibblesDue, fracOne_toNat]
  split <;> omega

/-- After a call the latched word is that of the last nibble fetched, if there was one (rules R101, R102). -/
theorem advanceLevel_lat (c : Cfg) (l : Fin 8) (lv : Level) :
    (advanceLevel c l lv).1.lat =
      if nibblesDue c lv = 0 then lv.lat else expand (nibbleAt c l lv (nibblesDue c lv - 1)) <<< l.val := by
  rw [advanceLevel_eq]
  cases nibblesDue c lv <;> rfl

/-- After a call the boundary bit is that of the last nibble fetched, if there was one (rules R103, R104). -/
theorem advanceLevel_boundary (c : Cfg) (l : Fin 8) (lv : Level) :
    (advanceLevel c l lv).1.endFlag =
      if nibblesDue c lv = 0 then lv.endFlag else (classify c (nibbleAt c l lv (nibblesDue c lv - 1))).boundary := by
  rw [advanceLevel_eq]
  cases nibblesDue c lv <;> rfl

theorem advanceLevel_foff (c : Cfg) (l : Fin 8) (lv : Level) :
    (advanceLevel c l lv).1.foff = offsetAfter lv.foff (nibblesDue c lv) := by
  rw [advanceLevel_eq, levelAfter_foff]
  rfl

/-- The live bit of a level is set in the live set only if it is set in `LST` (rule R97). -/
theorem lst_of_liveSet {c : Cfg} {s : State} {l : Fin 8} (h : (liveSet c s).getLsbD l.val = true) :
    s.lst.getLsbD l.val = true := by
  rw [liveSet_bit, Bool.and_eq_true] at h
  exact h.1

/-- A live level stays live iff none of the nibbles it fetches ends the stream (rule R103). -/
theorem fetchAll_lst_live {c : Cfg} {s : State} {l : Fin 8} (h : (liveSet c s).getLsbD l.val = true) :
    (fetchAll c s).lst.getLsbD l.val = !endsWithin c l (s.level l) (nibblesDue c (s.level l)) := by
  rw [fetchAll_lst, lst_of_liveSet h, h, advanceLevel_eq, Bool.true_and, Bool.true_and]

/-- Settles O28: the closed form of the catch-up loop, register by register, with the threshold and the position as numbers. -/
theorem fetchAdvancesLiveLevels : Obligations.FetchAdvancesLiveLevels := by
  refine ⟨fun c n => ⟨fun h => classify_v1 h n, fun h => classify_open h n⟩, fun s l hlive => ⟨_, rfl, ?_⟩⟩
  intro lv x one n
  have hx : (lv.frac + lv.step).toNat = x := BitVec.toNat_add lv.frac lv.step
  have hone : (fracOne Config.cfg).toNat = one := fracOne_toNat Config.cfg
  have hn : nibblesDue Config.cfg lv = n := by rw [nibblesDue, hx, hone]
  rw [fetchAll_level, if_pos hlive, fetchAll_lst_live hlive, ← hn]
  refine ⟨?_, advanceLevel_step _ l lv, advanceLevel_foff _ l lv, advanceLevel_lat _ l lv, advanceLevel_boundary _ l lv, ?_,
    nibblesDue_le _ lv⟩
  · rw [advanceLevel_frac, hx, hone]
  · rw [Bool.not_eq_true', ← Bool.not_eq_true, endsWithin_iff]
    simp only [not_exists, not_and, Bool.not_eq_true]
    rfl

/-! ### A level outside the live set -/

theorem fetchAll_level_dead {c : Cfg} {s : State} {l : Fin 8} (h : (liveSet c s).getLsbD l.val = false) :
    (fetchAll c s).level l = s.level l := by
  rw [fetchAll_level, h, if_neg Bool.false_ne_true]

/-- Two states with the same live bits and the same registers in every live level (rule R110). -/
structure SameLive (c : Cfg) (s t : State) : Prop where
  lst : s.lst = t.lst
  live : liveSet c s = liveSet c t
  level : ∀ k : Fin 8, (liveSet c s).getLsbD k.val = true → s.level k = t.level k

theorem sameLive_setLevel {c : Cfg} {s : State} {l : Fin 8} (h : (liveSet c s).getLsbD l.val = false) (lv : Level) :
    SameLive c s (s.setLevel l lv) where
  lst := rfl
  live := rfl
  level k hk := (level_setLevel_other s lv fun e => by rw [e, h] at hk; cases hk).symm

/-- The composite word is a union over the live levels (rule R99). -/
theorem SameLive.sprq {c : Cfg} {s t : State} (h : SameLive c s t) : (fetchAll c s).sprq = (fetchAll c t).sprq := by
  refine BitVec.eq_of_getLsbD_eq fun j _ => Bool.eq_iff_iff.mpr ?_
  rw [fetchAll_sprq, fetchAll_sprq, compositeWord_bit, compositeWord_bit, ← h.live]
  exact exists_congr fun k => and_congr_right fun hk => by rw [h.level k hk]

theorem SameLive.plbq {c : Cfg} {s t : State} (h : SameLive c s t) : (fetchAll c s).plbq = (fetchAll c t).plbq :=
  bits8_ext fun k => by
    rw [fetchAll_plbq_bit, fetchAll_plbq_bit, ← h.live]
    cases hk : (liveSet c s).getLsbD k.val with
    | true => rw [h.level k hk]
    | false => rfl

theorem SameLive.fetch_lst {c : Cfg} {s t : State} (h : SameLive c s t) : (fetchAll c s).lst = (fetchAll c t).lst :=
  bits8_ext fun k => by
    rw [fetchAll_lst, fetchAll_lst, ← h.live, ← h.lst]
    cases hk : (liveSet c s).getLsbD k.val with
    | true => rw [h.level k hk]
    | false => rfl

/-- Settles O29: the level stays, and the fetch cannot tell the state with its registers replaced from the state itself. -/
theorem fetchSkipsDeadLevels : Obligations.FetchSkipsDeadLevels := by
  intro s l lv hdead
  have hsame := sameLive_setLevel hdead lv
  refine ⟨_, _, rfl, rfl, fetchAll_level_dead hdead, ?_, ?_, hsame.sprq.symm, hsame.plbq.symm, hsame.fetch_lst.symm,
    fun k hk => ?_⟩
  · rw [fetchAll_level_dead (hsame.live ▸ hdead), level_setLevel_same]
  · rw [fetchAll_lst, hdead, Bool.false_and, Bool.not_false, Bool.and_true]
  · rw [fetchAll_level, fetchAll_level, ← hsame.live, level_setLevel_other s lv hk]

/-! ### The end of a stream -/

theorem fetches_levelForm {c : Cfg} {s : State} (hs : LevelForm c s) (n : Nat) : LevelForm c (fetches c n s) :=
  levelForm_iff.mpr (fetches_level_all c (advanceLevel_levelOk c) n (levelForm_iff.mp hs))

/-- A level whose `LST` bit is 0 stays dead (rule R108). -/
theorem fetches_lst_of_lst {s : State} {l : Fin 8} (h : s.lst.getLsbD l.val = false) (c : Cfg) (n : Nat) :
    (fetches c n s).lst.getLsbD l.val = false :=
  Bool.eq_false_iff.mpr fun hn => Bool.eq_false_iff.mp h (fetches_lst_le c n s l hn)

/-- A level whose `LST` bit is 0 is outside the live set of every later fetch (rules R97, R108). -/
theorem liveSet_fetches_of_lst {s : State} {l : Fin 8} (h : s.lst.getLsbD l.val = false) (c : Cfg) (n : Nat) :
    (liveSet c (fetches c n s)).getLsbD l.val = false := by
  rw [liveSet_bit, fetches_lst_of_lst h, Bool.false_and]

/-- Fetches leave the registers of a dead level alone (rule R110). -/
theorem fetches_level_of_lst {s : State} {l : Fin 8} (h : s.lst.getLsbD l.val = false) (c : Cfg) (n : Nat) :
    (fetches c n s).level l = s.level l := by
  induction n with
  | zero => rfl
  | succ n ih => rw [fetches, fetchAll_level_dead (liveSet_fetches_of_lst h c n), ih]

/-- Settles O34: the end nibble clears the live bit, and fetches set none again. -/
theorem endOfStream : Obligations.EndOfStream := by
  refine ⟨fun s => rfl, fun c s l n hs hlive hends => ?_⟩
  have hlst : (fetchAll c s).lst.getLsbD l.val = false := by rw [fetchAll_lst_live hlive, hends, Bool.not_true]
  have hform : LevelForm c (fetches c n (fetchAll c s)) := fetches_levelForm (fetches_levelForm hs 1) n
  have hdead := liveSet_fetches_of_lst hlst c n
  refine ⟨hlst, fetches_lst_of_lst hlst c n, fetches_level_of_lst hlst c n, and_laneMask_eq_zero fun p => ?_, ?_⟩
  · rw [fetches, fetchAll_sprq_lane hform, hdead, Bool.false_and]
  · rw [fetches, fetchAll_plbq_bit, hdead, Bool.false_and, Bool.and_false]

end Sys2Proof.Proofs
end

section
/-!
PROOF. One board pixel (43_compositor.md rules R111 to R122): the statements about `PIX` are read off the closed form of a board
pixel, its frame (`producePixel_frame`), its collision register (`producePixel_coll`) and its part of the row
(`producePixel_entry`, `producePixel_outside`), in terms of fetches from the rules' start state (`pixelStart_eq`).
-/

namespace Sys2Proof.Proofs
open Sys2Proof.Machine

/-! ### The scan position and the frame -/

/-- While a scanline is in progress, `BUSY` falls exactly on the advance of `H` to 0 (rule R122). -/
theorem busyAfter_eq_false_iff {busy : Bool} (hbusy : busy = true) (h' : Byte) : busyAfter busy h' = false ↔ h' = 0#8 :=
  ⟨busyAfter_eq_false hbusy, fun h => if_pos h⟩

/-- Settles O37: the advance is modulo 2^8, and `BUSY` follows the advanced `H`. -/
theorem pixAdvancesTheScanPosition : Obligations.PixAdvancesTheScanPosition := by
  refine fun s hbusy => ⟨_, exec_pix_next.mpr ⟨hbusy, rfl⟩, ?_⟩
  rw [producePixel_frame]
  exact ⟨BitVec.toNat_add s.h 1#8, busyAfter_eq_false_iff hbusy _, rfl⟩

/-- Settles O38: the levels, live bits and returned words in the frame of `PIX` are those of its fetches, one per device pixel. -/
theorem pixLatchesThenFetches : Obligations.PixLatchesThenFetches := by
  refine fun s hbusy => ⟨_, _, exec_pix_next.mpr ⟨hbusy, rfl⟩, execTimes_fetch _ _, ?_⟩
  rw [producePixel_frame, Config.cfg_subpix, pixelStart_eq]
  exact ⟨rfl, rfl, rfl, rfl, rfl⟩

/-- No fetch changes a step rate (rule R106). -/
theorem fetches_step (c : Cfg) (n : Nat) (s : State) (l : Fin 8) : ((fetches c n s).level l).step = (s.level l).step :=
  fetches_level_all c (P := fun l lv => lv.step = (s.level l).step) (fun l lv h => (advanceLevel_step c l lv).trans h) n
    (fun _ => rfl) l

/-- Settles O41: the frame of `PIX`; its fetches keep every step rate, and it never clears the road flag. -/
theorem pixLeavesAlone : Obligations.PixLeavesAlone := by
  intro s hbusy
  have hpix : exec .pix s = .next (producePixel Config.cfg s) := exec_pix_next.mpr ⟨hbusy, rfl⟩
  refine ⟨_, hpix, ?frame, fun l => ?step, fun hroad => (roadFlagIsSticky _ _ _ hpix).1 hroad nofun nofun⟩
  case frame => rw [producePixel_frame]
  case step =>
    rw [producePixel_level]
    exact fetches_step _ _ (latched _ s) l

/-! ### The row and the collision register -/

/-- Settles O39: each evaluation writes the one entry of its device pixel. -/
theorem pixWritesItsPartOfTheRow : Obligations.PixWritesItsPartOfTheRow := by
  refine fun s hbusy => ⟨_, exec_pix_next.mpr ⟨hbusy, rfl⟩,
    fun k hk => ⟨_, execTimes_fetch _ _, producePixel_entry s hk⟩, fun x hx => producePixel_outside _ s x ?_⟩
  rwa [rep_cfg, Config.cfg_subpix, Nat.mul_one, ← Nat.succ_mul]

/-- A bit of `COLL` after a board pixel: set before, or in V1 by the words of one of its fetches (rule R119). -/
theorem producePixel_coll_bit (c : Cfg) (s : State) (b : Nat) :
    (producePixel c s).coll.getLsbD b = true ↔
      s.coll.getLsbD b = true ∨
        (c.variant = .v1 ∧ ∃ k, k < c.subpix ∧
          (c.hooks.collBits (fetches c (k + 1) (pixelStart c s)).sprq (ruleArea c s) s.latch).getLsbD b = true) := by
  have hv : hasCollision c = true ↔ c.variant = .v1 := beq_iff_eq
  rw [producePixel_coll, ← ruleArea_eq, ← pixelStart_eq]
  by_cases hcoll : hasCollision c = true
  · rw [if_pos hcoll, BitVec.getLsbD_or, Bool.or_eq_true, collisionsOf_bit]
    exact or_congr_right (and_iff_right (hv.mp hcoll)).symm
  · rw [if_neg hcoll]
    exact (or_iff_left fun h => hcoll (hv.mpr h.1)).symm

/-- Settles O40: the states of the statement are the fetches of `producePixel_coll_bit`. -/
theorem pixAccumulatesCollisions : Obligations.PixAccumulatesCollisions := by
  refine fun s hbusy => ⟨_, exec_pix_next.mpr ⟨hbusy, rfl⟩, fun b => ?_⟩
  rw [producePixel_coll_bit, Config.cfg_subpix]
  refine or_congr_right (and_congr_right fun _ => exists_congr fun k => ⟨?_, ?_⟩)
  · exact fun ⟨hk, hbit⟩ => ⟨_, hk, execTimes_fetch _ _, hbit⟩
  · rintro ⟨f, hk, hf, hbit⟩
    cases (execTimes_fetch _ _).symm.trans hf
    exact ⟨hk, hbit⟩

/-! ### The chain of V3 -/

/-- Settles O42: the case split follows the chain, one flag at a time. -/
theorem starfieldChainOrder : Obligations.StarfieldChainOrder := by
  intro c s fgc sel mux k
  dsimp only [v3Chain]
  cases c.hooks.fs0 fgc with
  | false => rfl
  | true =>
    cases c.hooks.chng sel with
    | true => rfl
    | false =>
      cases c.hooks.fs1 fgc with
      | false => rfl
      | true => cases c.hooks.starBit (starPlane c s) s.v s.h k s.latch <;> rfl

end Sys2Proof.Proofs
end

section
/-!
PROOF. The system and host operations (44_system_ops.md rules R150 to R154). A host access is read off its closed form, the space
that the selector names (`writeSel_eq`, `readSel_eq`); both forms come from one case split over the selectors.
-/

namespace Sys2Proof.Proofs
open Sys2Proof.Machine

/-! ### Operations without operands -/

/-- A word's operation by its row of the opcode map (rule R64). -/
theorem decodeWord_of_opField {w : Word} {op : BitVec 4} (h : opField w = op) :
    decodeWord w = decodeFields op.toNat (selField w) (addrField w) (argField w) := by
  rw [decodeWord, h]

theorem exec_of_isNop {i : Instr} (h : isNop i = true) (s : State) : exec i s = .next s := exec_next_iff.mpr (.nop h)

/-- Settles O7: each of the eight operations is one without effect, and so is every word with one of their codes. -/
theorem nopAndReservedChangeNothing : Obligations.NopAndReservedChangeNothing := fun s =>
  have h {i : Instr} (hi : isNop i = true) : exec i s = .next s := exec_of_isNop hi s
  ⟨⟨h rfl, h rfl, h rfl, h rfl, h rfl, h rfl, h rfl, h rfl⟩,
    fun _ hop => h ((isNop_decodeFields _ _ _ _).trans (decide_eq_true hop))⟩

/-- Settles O9: the next state is `resetRegisters s`, whose levels are all fresh. -/
theorem rstResetsRegistersOnly : Obligations.RstResetsRegistersOnly := by
  refine ⟨fun w => decodeWord_of_opField, fun s => ⟨_, exec_next_iff.mpr .rst, rfl, rfl, rfl, rfl, rfl, rfl, rfl, fun l => ?_,
    rfl, rfl, rfl, rfl, rfl, rfl, rfl, rfl, rfl⟩⟩
  rw [level_resetRegisters]
  exact ⟨rfl, rfl, rfl, rfl, rfl⟩

/-- Settles O10: the row of code 2 in the opcode map, and the effect of `CCLR`. -/
theorem cclrClearsCollisionOnly : Obligations.CclrClearsCollisionOnly :=
  ⟨fun _ => decodeWord_of_opField, fun _ => exec_next_iff.mpr .cclr⟩

/-! ### Host accesses -/

/-- The five spaces' selectors, and those that name no space (rules R40, R65). -/
theorem selector_cases (sel : BitVec 4) : sel = 0#4 ∨ sel = 1#4 ∨ sel = 2#4 ∨ sel = 3#4 ∨ sel = 4#4 ∨ 5#4 ≤ sel := by
  revert sel
  decide

/-- A selector that names no space differs from the five that name one. -/
theorem selector_ne {sel : BitVec 4} (h : 5#4 ≤ sel) : sel ≠ 0#4 ∧ sel ≠ 1#4 ∧ sel ≠ 2#4 ∧ sel ≠ 3#4 ∧ sel ≠ 4#4 := by
  revert sel
  decide

/-- Latch addresses 6 and up read as 0 (rule R56). -/
theorem latchGet_of_six_le (l : Latches) {a : Nat} (ha : 6 ≤ a) : latchGet l a = 0#8 := by
  obtain ⟨k, rfl⟩ := Nat.exists_eq_add_of_le' ha
  rfl

/-- The byte of a host read, selector by selector (rule R153). -/
theorem readSel_eq (c : Cfg) (sel : BitVec 4) (addr : Half) (s : State) :
    readSel c sel addr s =
      if sel = 0#4 then slotByte c s (addr.toNat % 128)
      else if sel = 1#4 then henByte c s (addr.toNat % 512)
      else if sel = 2#4 then (if addr.toNat % 8 ≤ 5 then latchGet s.latch (addr.toNat % 8) else 0#8)
      else if sel = 3#4 then (if 0 < starSize c then starByte c s (addr.toNat % starSize c) else 0#8)
      else if sel = 4#4 then s.coll
      else 0#8 := by
  rcases selector_cases sel with rfl | rfl | rfl | rfl | rfl | hnone
  · rfl
  · rfl
  · show latchGet s.latch (addr.toNat % 8) = if addr.toNat % 8 ≤ 5 then _ else _
    split
    · rfl
    · next h => exact latchGet_of_six_le _ (not_le.mp h)
  · rfl
  · rfl
  · obtain ⟨h0, h1, h2, h3, h4⟩ := selector_ne hnone
    rw [readSel, spaceOfSel_none hnone, if_neg h0, if_neg h1, if_neg h2, if_neg h3, if_neg h4]

/-- Settles O13: the effect of `HRD`, with the byte read written out. -/
theorem hrdReadsIntoHdqOnly : Obligations.HrdReadsIntoHdqOnly := by
  refine ⟨fun w => decodeWord_of_opField, fun s sel addr => ?_⟩
  rw [← readSel_eq]
  exact exec_next_iff.mpr (.hrd sel addr)

/-- The state after a host write, space by space (rule R152). -/
theorem writeSel_eq (c : Cfg) (sel : BitVec 4) (addr : Half) (data : Byte) (s : State) :
    writeSel c sel addr data s =
      { s with
        slot := if sel = 0#4 then memWrite c.powerOn.slot s.slot (addr.toNat % 128) data else s.slot
        hen := if sel = 1#4 then memWrite c.powerOn.hen s.hen (addr.toNat % 512) data else s.hen
        latch := if sel = 2#4 then latchSet s.latch (addr.toNat % 8) data else s.latch
        star := if sel = 3#4 ∧ 0 < starSize c then memWrite c.powerOn.star s.star (addr.toNat % starSize c) data
          else s.star } := by
  rcases selector_cases sel with rfl | rfl | rfl | rfl | rfl | hnone
  · rfl
  · rfl
  · rfl
  · show (if 0 < starSize c then setStarByte c s (addr.toNat % starSize c) data else s) = _
    by_cases hpos : 0 < starSize c <;> simp [hpos, setStarByte]
  · rfl
  · obtain ⟨h0, h1, h2, h3, -⟩ := selector_ne hnone
    rw [writeSel, spaceOfSel_none hnone, if_neg h0, if_neg h1, if_neg h2, if_neg fun h => h3 h.1]

/-- A byte of a memory that was written under a condition. -/
theorem memRead_ite_write {α : Type} [DecidableEq α] (p : Prop) [Decidable p] (d : Nat → α) (m : List (Nat × α)) (a b : Nat)
    (x : α) : memRead d (if p then memWrite d m a x else m) b = if p ∧ b = a then x else memRead d m b := by
  by_cases hp : p
  · rw [if_pos hp, memRead_write]
    simp only [hp, true_and]
  · rw [if_neg hp, if_neg fun h => hp h.1]

/-- Settles O11: each byte of the closed form of a host write, by the rule for reads after writes of its space. -/
theorem hwrWritesOneByte : Obligations.HwrWritesOneByte := by
  refine ⟨fun c => starSize_eq_zero, fun s sel addr data =>
    ⟨_, exec_next_iff.mpr (.hwr sel addr data), writeSel_frame _ _ _ _ _, fun a => ?slot, fun a => ?hen, fun a => ?star,
      fun n => ?latch⟩⟩
  all_goals rw [writeSel_eq]
  case slot => exact memRead_ite_write _ _ _ _ _ _
  case hen => exact memRead_ite_write _ _ _ _ _ _
  case star =>
    simp only [← and_assoc]
    exact memRead_ite_write _ _ _ _ _ _
  case latch =>
    show latchGet (if sel = 2#4 then _ else _) n = _
    by_cases hsel : sel = 2#4
    · simp only [hsel, if_true, latchGet_latchSet, true_and]
    · rw [if_neg hsel, if_neg fun h => hsel h.1]

end Sys2Proof.Proofs
end

section
/-!
PROOF. Completion (60_exceptions.md rule R125): an operation issued as its duty asks has an effect, and an operation goes on
exactly when it has one (`exec_next_iff`). Only the duty of `PIX` (rule R147) is needed; that of `HWR` (rule R145) is not.
-/

namespace Sys2Proof.Proofs
open Sys2Proof.Machine

/-- An operation has an effect in every state that meets its duty. -/
theorem exists_effect_of_duty {i : Instr} {s : State} (h : Duty s i) : ∃ t : State, Effect i s t := by
  cases i with
  | pix => exact ⟨_, .pix h⟩
  | rst => exact ⟨_, .rst⟩
  | cclr => exact ⟨_, .cclr⟩
  | osc code => exact ⟨_, .osc code⟩
  | line v => exact ⟨_, .line v⟩
  | fetch => exact ⟨_, .fetch⟩
  | hwr sel addr data => exact ⟨_, .hwr sel addr data⟩
  | hrd sel addr => exact ⟨_, .hrd sel addr⟩
  | nop | rsv9 | rsvA | rsvB | rsvC | rsvD | rsvE | rsvF => exact ⟨s, .nop rfl⟩

/-- Settles O47: the effect that the duty ensures is the next state, and there is no fault to answer (`Fault` is empty). -/
theorem everyOperationCompletes : Obligations.EveryOperationCompletes := fun _ _ =>
  ⟨fun hduty => (exists_effect_of_duty hduty).imp fun _ => exec_next_iff.mpr, nofun⟩

end Sys2Proof.Proofs
end

section
/-!
PROOF. The precondition of `PIX` (70_reset_and_hazards.md rule R147): the refused branch beside `exec_pix_next`, which says when
`PIX` goes on.
-/

namespace Sys2Proof.Proofs
open Sys2Proof.Machine

/-- `PIX` is refused exactly when no scanline is in progress. -/
theorem exec_pix_refused {s : State} : exec .pix s = .refused .pixWithoutScanline ↔ s.busy = false := by
  constructor
  · intro h
    refine Bool.eq_false_iff.mpr fun hbusy => ?_
    rw [exec_pix_next.mpr ⟨hbusy, rfl⟩] at h
    cases h
  · exact fun hidle => if_neg (Bool.eq_false_iff.mp hidle)

/-- Settles O36: both branches of `PIX`, and the effect of `FETCH`, which asks nothing of the state. -/
theorem pixNeedsAScanline : Obligations.PixNeedsAScanline := fun _ =>
  ⟨exec_pix_refused.mpr, fun hbusy => ⟨_, exec_next_iff.mpr (.pix hbusy)⟩, _, exec_next_iff.mpr .fetch⟩

end Sys2Proof.Proofs
end
